-- ==== Sys2Proof/Word.lean ====
section
/-! DEFINITION. The widths of the machine (00_scope.md R5, R8): bytes, 16-bit words, the 12-bit address
immediate, register numbers. Every value is unsigned (R8). -/

namespace Sys2Proof

/-- An 8-bit value: a memory cell, a general register, a timer, the immediate `nn`. -/
abbrev Byte := BitVec 8

/-- A 16-bit value: an instruction word, I, PC, a stack entry. -/
abbrev Word := BitVec 16

/-- The 12-bit address immediate `nnn` (30_encoding.md R61). -/
abbrev Addr12 := BitVec 12

/-- A register number 0..15 (10_state.md R10). A register field has 4 bits, so it is never out of range (R61). -/
abbrev Reg := Fin 16

/-- `zext_16(v)` (00_scope.md R8): the same number in 16 bits. -/
abbrev zext16 {n : Nat} (v : BitVec n) : Word := v.setWidth 16

end Sys2Proof
end

