-- ==== Sys2Proof/Syntax.lean ====
section
/-! DEFINITION. The 34 instructions (30_encoding.md R64), one constructor per row of spec/opcode_table.json, in the
table's order. Operands are the fields of R61; the ignored `y` of shr and shl is no operand, since "all 16 values of
`y` give the same instruction" (R68). -/

namespace Sys2Proof

/-- One instruction. `x`, `y` are register numbers, `nn` and `nnn` immediates, `n` the row count of draw, a count
(41 to 44 of the spec name each instruction's rule). -/
inductive Instr where
  | clearScreen                              -- 00E0
  | ret                                      -- 00EE, the table's `return`
  | jump (nnn : Addr12)                      -- 1nnn
  | call (nnn : Addr12)                      -- 2nnn
  | skipEqImm (x : Reg) (nn : Byte)          -- 3xnn
  | skipNeqImm (x : Reg) (nn : Byte)         -- 4xnn
  | skipEqReg (x y : Reg)                    -- 5xy0
  | setImm (x : Reg) (nn : Byte)             -- 6xnn
  | addImm (x : Reg) (nn : Byte)             -- 7xnn
  | setReg (x y : Reg)                       -- 8xy0
  | orReg (x y : Reg)                        -- 8xy1
  | andReg (x y : Reg)                       -- 8xy2
  | xorReg (x y : Reg)                       -- 8xy3
  | addReg (x y : Reg)                       -- 8xy4
  | subReg (x y : Reg)                       -- 8xy5
  | shr (x : Reg)                            -- 8xy6, y ignored
  | subnReg (x y : Reg)                      -- 8xy7
  | shl (x : Reg)                            -- 8xyE, y ignored
  | skipNeqReg (x y : Reg)                   -- 9xy0
  | setIndex (nnn : Addr12)                  -- Annn
  | jumpOffset (nnn : Addr12)                -- Bnnn
  | random (x : Reg) (nn : Byte)             -- Cxnn
  | draw (x y : Reg) (n : Nat)               -- Dxyn
  | skipKeyPressed (x : Reg)                 -- Ex9E
  | skipKeyNotPressed (x : Reg)              -- ExA1
  | getDelay (x : Reg)                       -- Fx07
  | waitKey (x : Reg)                        -- Fx0A
  | setDelay (x : Reg)                       -- Fx15
  | setSound (x : Reg)                       -- Fx18
  | addToIndex (x : Reg)                     -- Fx1E
  | fontCharAddr (x : Reg)                   -- Fx29
  | bcdStore (x : Reg)                       -- Fx33
  | regDump (x : Reg)                        -- Fx55
  | regLoad (x : Reg)                        -- Fx65
  deriving DecidableEq, Repr

end Sys2Proof
end

