-- ==== Sys2Proof/WellFormed.lean ====
section
/-! DEFINITION. Which instruction terms an encoding can hold. Register numbers and the immediates `nn`, `nnn` are
bounded by their types (30_encoding.md R61: "structurally bounded"); the one operand held as a plain number is draw's
row count, which the field `n = w[3:0]` bounds by 15 (R61, R63). -/

namespace Sys2Proof

/-- The instruction can be encoded: draw's row count fits its 4-bit field (R63: "`n` in draw is a row count 0..15"). -/
def WellFormed : Instr → Bool
  | .draw _ _ n => decide (n < 16)
  | .clearScreen | .ret => true
  | .jump _ | .call _ | .setIndex _ | .jumpOffset _ => true
  | .skipEqImm _ _ | .skipNeqImm _ _ | .setImm _ _ | .addImm _ _ | .random _ _ => true
  | .skipEqReg _ _ | .skipNeqReg _ _ | .setReg _ _ | .orReg _ _ | .andReg _ _ | .xorReg _ _ => true
  | .addReg _ _ | .subReg _ _ | .subnReg _ _ => true
  | .shr _ | .shl _ => true
  | .skipKeyPressed _ | .skipKeyNotPressed _ => true
  | .getDelay _ | .waitKey _ | .setDelay _ | .setSound _ => true
  | .addToIndex _ | .fontCharAddr _ | .bcdStore _ | .regDump _ | .regLoad _ => true

end Sys2Proof
end

