-- ==== Sys2Proof/Decode.lean ====
section
/-! DEFINITION. Decoding and encoding (30_encoding.md): the fields of a word (R61), the opcode map as a table (R64),
the decoder by the tuple of the four nibbles (R65), total and rejecting by name, and the encoder. The patterns of 29
rows are the spec's G1, from general knowledge (notes/assumptions/7); the set of unrecognized words is R67
(notes/assumptions/8). -/

namespace Sys2Proof

/-! ### Fields of an instruction word (R61) -/

/-- `op = w[15:12]`. -/
def fieldOp (w : Word) : BitVec 4 := w.extractLsb' 12 4

/-- `x = w[11:8]`, a register number. -/
def fieldX (w : Word) : Reg := (w.extractLsb' 8 4).toFin

/-- `y = w[7:4]`, a register number. -/
def fieldY (w : Word) : Reg := (w.extractLsb' 4 4).toFin

/-- `n = w[3:0]`. -/
def fieldN (w : Word) : BitVec 4 := w.extractLsb' 0 4

/-- `nn = w[7:0]`. -/
def fieldNN (w : Word) : Byte := w.extractLsb' 0 8

/-- `nnn = w[11:0]`. -/
def fieldNNN (w : Word) : Addr12 := w.extractLsb' 0 12

/-! ### The four layouts an encoder needs (R62) -/

/-- Format NNN: `op nnn`. -/
def wordNNN (op : BitVec 4) (nnn : Addr12) : Word := op ++ nnn

/-- Formats XNN and X: `op x nn`, with `nn` an immediate or a minor opcode. -/
def wordXNN (op : BitVec 4) (x : Reg) (nn : Byte) : Word := op ++ (BitVec.ofFin x : BitVec 4) ++ nn

/-- Formats XY and XYN: `op x y n`, with `n` a minor opcode or a row count. -/
def wordXYN (op : BitVec 4) (x y : Reg) (n : BitVec 4) : Word :=
  op ++ (BitVec.ofFin x : BitVec 4) ++ (BitVec.ofFin y : BitVec 4) ++ n

/-! ### The opcode map (R64) -/

/-- One row of the map: `w` is this row's instruction iff `w & mask = pattern`. -/
structure OpcodeRow where
  mnemonic : String
  mask : Word
  pattern : Word
  deriving DecidableEq, Repr

/-- The word matches the row. -/
def OpcodeRow.matches (r : OpcodeRow) (w : Word) : Bool := w &&& r.mask == r.pattern

/-- Each instruction's row of R64, with the mnemonic, mask and match of spec/opcode_table.json. -/
def Instr.row : Instr → OpcodeRow
  | .clearScreen           => ⟨"clear-screen", 0xFFFF, 0x00E0⟩
  | .ret                   => ⟨"return", 0xFFFF, 0x00EE⟩
  | .jump _                => ⟨"jump", 0xF000, 0x1000⟩
  | .call _                => ⟨"call", 0xF000, 0x2000⟩
  | .skipEqImm _ _         => ⟨"skip-eq-imm", 0xF000, 0x3000⟩
  | .skipNeqImm _ _        => ⟨"skip-neq-imm", 0xF000, 0x4000⟩
  | .skipEqReg _ _         => ⟨"skip-eq-reg", 0xF00F, 0x5000⟩
  | .setImm _ _            => ⟨"set-imm", 0xF000, 0x6000⟩
  | .addImm _ _            => ⟨"add-imm", 0xF000, 0x7000⟩
  | .setReg _ _            => ⟨"set-reg", 0xF00F, 0x8000⟩
  | .orReg _ _             => ⟨"or", 0xF00F, 0x8001⟩
  | .andReg _ _            => ⟨"and", 0xF00F, 0x8002⟩
  | .xorReg _ _            => ⟨"xor", 0xF00F, 0x8003⟩
  | .addReg _ _            => ⟨"add-reg", 0xF00F, 0x8004⟩
  | .subReg _ _            => ⟨"sub-reg", 0xF00F, 0x8005⟩
  | .shr _                 => ⟨"shr", 0xF00F, 0x8006⟩
  | .subnReg _ _           => ⟨"subn-reg", 0xF00F, 0x8007⟩
  | .shl _                 => ⟨"shl", 0xF00F, 0x800E⟩
  | .skipNeqReg _ _        => ⟨"skip-neq-reg", 0xF00F, 0x9000⟩
  | .setIndex _            => ⟨"set-index", 0xF000, 0xA000⟩
  | .jumpOffset _          => ⟨"jump-offset", 0xF000, 0xB000⟩
  | .random _ _            => ⟨"random", 0xF000, 0xC000⟩
  | .draw _ _ _            => ⟨"draw", 0xF000, 0xD000⟩
  | .skipKeyPressed _      => ⟨"skip-key-pressed", 0xF0FF, 0xE09E⟩
  | .skipKeyNotPressed _   => ⟨"skip-key-not-pressed", 0xF0FF, 0xE0A1⟩
  | .getDelay _            => ⟨"get-delay", 0xF0FF, 0xF007⟩
  | .waitKey _             => ⟨"wait-key", 0xF0FF, 0xF00A⟩
  | .setDelay _            => ⟨"set-delay", 0xF0FF, 0xF015⟩
  | .setSound _            => ⟨"set-sound", 0xF0FF, 0xF018⟩
  | .addToIndex _          => ⟨"add-to-index", 0xF0FF, 0xF01E⟩
  | .fontCharAddr _        => ⟨"font-char-addr", 0xF0FF, 0xF029⟩
  | .bcdStore _            => ⟨"bcd-store", 0xF0FF, 0xF033⟩
  | .regDump _             => ⟨"reg-dump", 0xF0FF, 0xF055⟩
  | .regLoad _             => ⟨"reg-load", 0xF0FF, 0xF065⟩

/-- One instruction of each row, in the order of R64; the fields do not matter to its row. -/
def Instr.samples : List Instr :=
  [.clearScreen, .ret, .jump 0, .call 0, .skipEqImm 0 0, .skipNeqImm 0 0, .skipEqReg 0 0, .setImm 0 0, .addImm 0 0] ++
  [.setReg 0 0, .orReg 0 0, .andReg 0 0, .xorReg 0 0, .addReg 0 0, .subReg 0 0, .shr 0, .subnReg 0 0, .shl 0] ++
  [.skipNeqReg 0 0, .setIndex 0, .jumpOffset 0, .random 0 0, .draw 0 0 0, .skipKeyPressed 0, .skipKeyNotPressed 0] ++
  [.getDelay 0, .waitKey 0, .setDelay 0, .setSound 0, .addToIndex 0, .fontCharAddr 0, .bcdStore 0, .regDump 0, .regLoad 0]

/-- The map of R64: 34 rows. -/
def opcodeTable : List OpcodeRow := Instr.samples.map Instr.row

/-! ### The decoder (R65) -/

/-- Why the decoder gives no instruction. -/
inductive Reject where
  /-- The word matches no row of R64: the unrecognized instruction of R67, which 45_unrecognized.md R170 executes. -/
  | unrecognized (w : Word)
  /-- Fewer than two bytes were given (an instruction is two bytes, R60). Only `decodeBytes` answers it. -/
  | truncated
  deriving DecidableEq, Repr

/-- Words whose first nibble is 0: clear-screen and return, and nothing else (R67: `0nnn` other than 00E0 and 00EE). -/
def decodeSystem (w : Word) : Except Reject Instr :=
  if w = 0x00E0 then .ok .clearScreen
  else if w = 0x00EE then .ok .ret
  else .error (.unrecognized w)

/-- Words whose first nibble is 8, by the fourth nibble. -/
def decodeArith (w : Word) : Except Reject Instr :=
  match (fieldN w).toNat with
  | 0x0 => .ok (.setReg (fieldX w) (fieldY w))
  | 0x1 => .ok (.orReg (fieldX w) (fieldY w))
  | 0x2 => .ok (.andReg (fieldX w) (fieldY w))
  | 0x3 => .ok (.xorReg (fieldX w) (fieldY w))
  | 0x4 => .ok (.addReg (fieldX w) (fieldY w))
  | 0x5 => .ok (.subReg (fieldX w) (fieldY w))
  | 0x6 => .ok (.shr (fieldX w))
  | 0x7 => .ok (.subnReg (fieldX w) (fieldY w))
  | 0xE => .ok (.shl (fieldX w))
  | _   => .error (.unrecognized w)

/-- Words whose first nibble is E, by the low byte. -/
def decodeKeys (w : Word) : Except Reject Instr :=
  if fieldNN w = 0x9E then .ok (.skipKeyPressed (fieldX w))
  else if fieldNN w = 0xA1 then .ok (.skipKeyNotPressed (fieldX w))
  else .error (.unrecognized w)

/-- Words whose first nibble is F, by the low byte. -/
def decodeMisc (w : Word) : Except Reject Instr :=
  if fieldNN w = 0x07 then .ok (.getDelay (fieldX w))
  else if fieldNN w = 0x0A then .ok (.waitKey (fieldX w))
  else if fieldNN w = 0x15 then .ok (.setDelay (fieldX w))
  else if fieldNN w = 0x18 then .ok (.setSound (fieldX w))
  else if fieldNN w = 0x1E then .ok (.addToIndex (fieldX w))
  else if fieldNN w = 0x29 then .ok (.fontCharAddr (fieldX w))
  else if fieldNN w = 0x33 then .ok (.bcdStore (fieldX w))
  else if fieldNN w = 0x55 then .ok (.regDump (fieldX w))
  else if fieldNN w = 0x65 then .ok (.regLoad (fieldX w))
  else .error (.unrecognized w)

/-- The decoder (R65: "Dispatch on the tuple of these fields"), total on all 65536 words; it reads nothing but the
word. -/
def decodeWord (w : Word) : Except Reject Instr :=
  match (fieldOp w).toNat with
  | 0x0 => decodeSystem w
  | 0x1 => .ok (.jump (fieldNNN w))
  | 0x2 => .ok (.call (fieldNNN w))
  | 0x3 => .ok (.skipEqImm (fieldX w) (fieldNN w))
  | 0x4 => .ok (.skipNeqImm (fieldX w) (fieldNN w))
  | 0x5 => if fieldN w = 0 then .ok (.skipEqReg (fieldX w) (fieldY w)) else .error (.unrecognized w)
  | 0x6 => .ok (.setImm (fieldX w) (fieldNN w))
  | 0x7 => .ok (.addImm (fieldX w) (fieldNN w))
  | 0x8 => decodeArith w
  | 0x9 => if fieldN w = 0 then .ok (.skipNeqReg (fieldX w) (fieldY w)) else .error (.unrecognized w)
  | 0xA => .ok (.setIndex (fieldNNN w))
  | 0xB => .ok (.jumpOffset (fieldNNN w))
  | 0xC => .ok (.random (fieldX w) (fieldNN w))
  | 0xD => .ok (.draw (fieldX w) (fieldY w) (fieldN w).toNat)
  | 0xE => decodeKeys w
  | _   => decodeMisc w

/-- The word of two bytes as memory holds them, the byte at the lower address first (20_memory.md R45: `b0 || b1`). -/
def wordOfBytes (b0 b1 : Byte) : Word := b0 ++ b1

/-- The two bytes of a word in memory order, the more significant first (R45, R60). -/
def bytesOfWord (w : Word) : Byte × Byte := (w.extractLsb' 8 8, w.extractLsb' 0 8)

/-- The decoder on bytes: one instruction and the bytes after it. -/
def decodeBytes : List Byte → Except Reject (Instr × List Byte)
  | b0 :: b1 :: rest =>
    match decodeWord (wordOfBytes b0 b1) with
    | .ok i => .ok (i, rest)
    | .error e => .error e
  | _ => .error .truncated

/-! ### The encoder (R62, R64; shr and shl assemble `y = 0`, R69) -/

/-- The word of an instruction. -/
def encode : Instr → Word
  | .clearScreen           => 0x00E0
  | .ret                   => 0x00EE
  | .jump nnn              => wordNNN 0x1 nnn
  | .call nnn              => wordNNN 0x2 nnn
  | .skipEqImm x nn        => wordXNN 0x3 x nn
  | .skipNeqImm x nn       => wordXNN 0x4 x nn
  | .skipEqReg x y         => wordXYN 0x5 x y 0x0
  | .setImm x nn           => wordXNN 0x6 x nn
  | .addImm x nn           => wordXNN 0x7 x nn
  | .setReg x y            => wordXYN 0x8 x y 0x0
  | .orReg x y             => wordXYN 0x8 x y 0x1
  | .andReg x y            => wordXYN 0x8 x y 0x2
  | .xorReg x y            => wordXYN 0x8 x y 0x3
  | .addReg x y            => wordXYN 0x8 x y 0x4
  | .subReg x y            => wordXYN 0x8 x y 0x5
  | .shr x                 => wordXYN 0x8 x 0 0x6
  | .subnReg x y           => wordXYN 0x8 x y 0x7
  | .shl x                 => wordXYN 0x8 x 0 0xE
  | .skipNeqReg x y        => wordXYN 0x9 x y 0x0
  | .setIndex nnn          => wordNNN 0xA nnn
  | .jumpOffset nnn        => wordNNN 0xB nnn
  | .random x nn           => wordXNN 0xC x nn
  | .draw x y n            => wordXYN 0xD x y (BitVec.ofNat 4 n)
  | .skipKeyPressed x      => wordXNN 0xE x 0x9E
  | .skipKeyNotPressed x   => wordXNN 0xE x 0xA1
  | .getDelay x            => wordXNN 0xF x 0x07
  | .waitKey x             => wordXNN 0xF x 0x0A
  | .setDelay x            => wordXNN 0xF x 0x15
  | .setSound x            => wordXNN 0xF x 0x18
  | .addToIndex x          => wordXNN 0xF x 0x1E
  | .fontCharAddr x        => wordXNN 0xF x 0x29
  | .bcdStore x            => wordXNN 0xF x 0x33
  | .regDump x             => wordXNN 0xF x 0x55
  | .regLoad x             => wordXNN 0xF x 0x65

/-- The instruction as it lies in memory. -/
def encodeBytes (i : Instr) : List Byte := [(bytesOfWord (encode i)).1, (bytesOfWord (encode i)).2]

/-! ### The host's probe -/

/-- The word the opcode table numbers `w`: bit 0 is the least significant bit of the word, bits from `nbits` up are 0.
One instruction is one 16-bit word, so only its 16 bits count. -/
def tableWord (nbits w : Nat) : Word := BitVec.ofNat 16 (w % 2 ^ nbits)

/-- The instruction the decoder reads from the table's number `w` of `nbits` bits, laid out in memory order. -/
def decodeTableWord (nbits w : Nat) : Option Instr :=
  match decodeBytes [(bytesOfWord (tableWord nbits w)).1, (bytesOfWord (tableWord nbits w)).2] with
  | .ok (i, _) => some i
  | .error _ => none

end Sys2Proof
end

