-- ==== Sys2Proof/Machine/Flags.lean ====
section
/-! DEFINITION. The values VF receives (10_state.md R12): carry, no borrow, the bit shifted out, shl's masked nibble,
collision. There is no flag register and no instruction reads VF as a condition. -/

namespace Sys2Proof.Machine

/-- A condition as a flag value, 1 or 0. -/
def flagByte (c : Bool) : Byte := if c then 1 else 0

/-- add-reg: "VF=1 iff the unsigned sum of the two 8-bit operands exceeds 255" (41_alu.md R107). -/
def carryFlag (a b : Byte) : Byte := flagByte (decide (a.toNat + b.toNat > 255))

/-- sub-reg and subn-reg, for the subtraction `a - b`: 1 iff no borrow, that is `a >= b` (R108, R110). -/
def noBorrowFlag (a b : Byte) : Byte := flagByte (decide (a.toNat ≥ b.toNat))

/-- shr: the bit shifted out, bit 0 before the shift (R109). -/
def shrFlag (a : Byte) : Byte := a &&& 1

/-- shl: the value before the shift ANDed with `0xF0`, not shifted down, not the single bit 7 (R111, decision D28,
notes/assumptions/19). -/
def shlFlag (a : Byte) : Byte := a &&& 0xF0

/-- draw: 1 iff a cell the sprite set was already true (43_display.md R141). -/
def collisionFlag (hit : Bool) : Byte := flagByte hit

end Sys2Proof.Machine
end

