-- ==== Sys2Proof/Machine/HostEvent.lean ====
section
/-! DEFINITION. What the host may do to the core (00_scope.md R7, 60_exceptions.md R190), and how a host that goes on for
ever is written down (R191, notes/assumptions/1). -/

namespace Sys2Proof.Machine

/-- The host's six events (00_scope.md R7, 60_exceptions.md R190). -/
inductive HostEvent where
  | reset
  | load (bytes : List Byte)
  | setKey (k : Fin 16) (b : Bool)
  | tick (r : Byte)
  | tickTimers
  | readDisplay
  deriving DecidableEq, Repr, Inhabited

/-- An event of a host's recurring plan: a given one, or a `Tick` with a fresh free byte each time it comes round. -/
inductive PlannedEvent where
  | given (e : HostEvent)
  | tickAnyByte
  deriving DecidableEq, Repr

end Sys2Proof.Machine
end

