-- ==== Sys2Proof/Config.lean ====
section
/-! DEFINITION. The fixed sizes of the machine (00_scope.md R5) and its FREE VALUES: constants with no body, applied
to the counter `env.draws`, so that nothing can be proved of the value they give (notes/assumptions 1, 2 and 3). -/

namespace Sys2Proof.Config

/-- `MEM_SIZE` (R5, 20_memory.md R40). -/
abbrev memSize : Nat := 4096

/-- `PROG_BASE`: where `Load` puts a program and the lowest address a fetch accepts (R5, R41, 10_state.md R16). -/
abbrev progBase : Nat := 0x200

/-- `MAX_PROG = 4096 - 0x200` (R5, 60_exceptions.md R192). -/
abbrev maxProg : Nat := 3584

/-- The number of bytes of the font table, at addresses `0x000..0x04F` (R5, R41). -/
abbrev fontSize : Nat := 80

/-- The display's width `W` (R5). -/
abbrev width : Nat := 64

/-- The display's height `H` (R5). -/
abbrev height : Nat := 32

/-- The random byte of a `Tick` whose byte no one has given (41_alu.md R112: "a free input of the step, any value 0..255,
under no law"). Free value. -/
opaque randomByte : Nat → Byte

/-- The event a host chooses that has neither a schedule nor a recurring plan (60_exceptions.md R191: "any finite or
infinite sequence is a legal schedule"): as a function of the count, any infinite sequence. Free value. -/
opaque hostChoice : Nat → Machine.HostEvent

/-- The general registers after a fault (60_exceptions.md R183(a)). Free value. -/
opaque lostRegs : Nat → Vector Byte 16

/-- I after a fault (R183(a)). Free value. -/
opaque lostIndex : Nat → Word

/-- PC after a fault (R183(a)). Free value. -/
opaque lostPc : Nat → Word

/-- The stack entries after a fault (R183(a)). Free value. -/
opaque lostStack : Nat → Vector Word 16

/-- SP after a fault (R183(a)), within the bound 0..16 that 10_state.md R20 calls an invariant. Free value. -/
opaque lostSp : Nat → Fin 17

/-- DT after a fault (R183(a)). Free value. -/
opaque lostDelay : Nat → Byte

/-- ST after a fault (R183(a)). Free value. -/
opaque lostSound : Nat → Byte

/-- The key flags after a fault (R183(a): "every piece of state other than FAULT and CAUSE"). Free value. -/
opaque lostKeys : Nat → Vector Bool 16

/-- The framebuffer after a fault, and the cells a `ReadDisplay` returns then (R183(a)). Free value. -/
opaque lostCells : Nat → Vector (BitVec 64) 32

/-- Byte `a` of memory after a fault (R183(a)). Free value. -/
opaque lostByte : Nat → Nat → Byte

end Sys2Proof.Config
end

