-- ==== Sys2Proof/Machine/Font.lean ====
section
/-! DEFINITION. The default of the parameter `FONT` (20_memory.md R46, decision D18): the table every CHIP-8
interpreter uses, which the spec takes from general knowledge (UNVERIFIED, notes/assumptions/6). A machine carries its
font in `State.env.font`; only `State.reset` uses this default. -/

namespace Sys2Proof.Machine

/-- Glyphs 0 to 3, five rows each, top row first (R46). -/
def glyphs0to3 : Vector Byte 20 :=
  #v[0xF0, 0x90, 0x90, 0x90, 0xF0, 0x20, 0x60, 0x20, 0x20, 0x70, 0xF0, 0x10, 0xF0, 0x80, 0xF0, 0xF0, 0x10, 0xF0, 0x10, 0xF0]

/-- Glyphs 4 to 7. -/
def glyphs4to7 : Vector Byte 20 :=
  #v[0x90, 0x90, 0xF0, 0x10, 0x10, 0xF0, 0x80, 0xF0, 0x10, 0xF0, 0xF0, 0x80, 0xF0, 0x90, 0xF0, 0xF0, 0x10, 0x20, 0x40, 0x40]

/-- Glyphs 8 to B. -/
def glyphs8toB : Vector Byte 20 :=
  #v[0xF0, 0x90, 0xF0, 0x90, 0xF0, 0xF0, 0x90, 0xF0, 0x10, 0xF0, 0xF0, 0x90, 0xF0, 0x90, 0x90, 0xE0, 0x90, 0xE0, 0x90, 0xE0]

/-- Glyphs C to F. -/
def glyphsCtoF : Vector Byte 20 :=
  #v[0xF0, 0x80, 0x80, 0x80, 0xF0, 0xE0, 0x90, 0x90, 0x90, 0xE0, 0xF0, 0x80, 0xF0, 0x80, 0xF0, 0xF0, 0x80, 0xF0, 0x80, 0x80]

/-- The 80 bytes of the default `FONT` (R46). -/
def defaultFont : Vector Byte Config.fontSize := glyphs0to3 ++ glyphs4to7 ++ glyphs8toB ++ glyphsCtoF

end Sys2Proof.Machine
end

