-- ==== Sys2Proof/Machine/State.lean ====
section
/-! DEFINITION. The state of the machine: the spec's tuple `(MEM, V, I, PC, STACK, SP, DT, ST, KEY, FB, FAULT, CAUSE)`
(10_state.md), and `Env`, what stands outside the core (R25) and is held because a step takes the state alone. -/

namespace Sys2Proof.Machine

/-- The causes of 60_exceptions.md R181. In this model they are values of CAUSE: taking a fault is the entry R183
describes, a NEXT state with the latch set (`enterFault`), so no step ends in `Host.Outcome.fault`. Each is safe: a
faulted state says nothing of the rest of the machine (free values). -/
inductive Fault where
  /-- Cause 1: call with `SP = 16` (R82). Safe. -/
  | stackOverflow
  /-- Cause 2: return with `SP = 0` (R80). Safe. -/
  | stackUnderflow
  /-- Cause 3: a fetch with `PC + 1 >= 4096` (R16). Safe. -/
  | fetchAddrRange
  /-- Cause 4: draw, bcd-store, reg-dump or reg-load at an address of 4096 or more (R42). Safe. -/
  | dataAddrRange
  /-- Cause 5: a `Load` of more than 3584 bytes (R192). Safe. -/
  | loadTooLarge
  /-- Cause 6: a key instruction with `V[x] >= 16` (R156, the spec's decision D5). Safe. -/
  | keyIndexRange
  /-- Cause 7: a fetch with `PC < 0x200` (R16, the spec's decision D6). Safe. -/
  | reservedFetch
  deriving DecidableEq, Repr

/-- Why a step has no meaning. No step of this model is refused. -/
inductive Refusal where
  /-- An instruction without a meaning, by its mnemonic. Raised by nothing: every arm of `exec` has its meaning. Safe. -/
  | notModelled (mnemonic : String)
  deriving DecidableEq, Repr

/-- Memory: pairs of an address and a byte in canonical form (`Memory.wf`, Machine/Ops.lean). -/
abbrev Memory := List Host.Cell

/-- The framebuffer: 32 rows of 64 one-bit cells; `FB[y*64 + x]` is bit `x` of row `y` (R52, notes/assumptions/24). -/
abbrev FrameBuffer := Vector (BitVec 64) 32

/-- What the host receives: a diagnostic (45_unrecognized.md R171), or the grid of a `ReadDisplay` with its width and
height (60_exceptions.md R196). -/
inductive HostOutput where
  | diag (w : Word)
  | display (width height : Nat) (cells : FrameBuffer)
  deriving DecidableEq, Repr

/-- What stands outside the core (10_state.md R25: "inputs of a step, not state of the core"): the parameters of
00_scope.md R6, the byte of the `Tick` in progress, the count of free values used, and the outputs so far. -/
structure Env where
  /-- The parameter `FONT` (R6, R46). No event changes it. -/
  font : Vector Byte Config.fontSize
  /-- The parameter `SCHEDULE` (R6, R191), its finite beginning: the events to come, the first one next. -/
  schedule : List HostEvent
  /-- The parameter `SCHEDULE` after that beginning: events that recur for ever, in this order, the first one next. If
  there is none either, the host chooses each event freely (`Config.hostChoice`). -/
  recurring : List PlannedEvent
  /-- The byte `r` of the latest `Tick` (R7, R198); random reads it. -/
  rnd : Byte
  /-- How many free values have been used: the argument of the constants of `Config`. -/
  draws : Nat
  /-- What the host has received, newest first. -/
  outbox : List HostOutput
  deriving DecidableEq, Repr

/-- The whole state. -/
structure State where
  /-- MEM (R40). -/
  mem : Memory
  /-- V0..VF (R10). -/
  v : Vector Byte 16
  /-- I (R14). -/
  i : Word
  /-- PC (R15). -/
  pc : Word
  /-- STACK[0..15] (R19). -/
  stack : Vector Word 16
  /-- SP, the number of entries in use, 0..16 (R20). -/
  sp : Fin 17
  /-- DT (R21). -/
  dt : Byte
  /-- ST (R21). -/
  st : Byte
  /-- KEY[0..15] (R23(c)). -/
  key : Vector Bool 16
  /-- FB[0..2047] (R23(d)). -/
  fb : FrameBuffer
  /-- FAULT (R22). -/
  fault : Bool
  /-- CAUSE (R22, R181): none is code 0. -/
  cause : Option Fault
  /-- Outside the core. -/
  env : Env
  deriving DecidableEq, Repr

/-- The environment a run starts in: the default font, no event scheduled but a `Tick` for ever, nothing
drawn, nothing received (notes/assumptions 1, 2, 5, 6). -/
def Env.initial : Env where
  font := defaultFont
  schedule := []
  recurring := [.tickAnyByte]
  rnd := 0
  draws := 0
  outbox := []

/-- The state after `Reset` and after construction (10_state.md R24, 70_reset_and_hazards.md R210). Memory lists
nothing: an unlisted address reads as its reset contents (Machine/Ops.lean, `resetByte`). -/
def State.reset : State where
  mem := []
  v := Vector.replicate 16 0
  i := 0
  pc := 0x200
  stack := Vector.replicate 16 0
  sp := 0
  dt := 0
  st := 0
  key := Vector.replicate 16 false
  fb := Vector.replicate 32 0
  fault := false
  cause := none
  env := Env.initial

end Sys2Proof.Machine
end

