-- ==== Sys2Proof/Machine/Ops.lean ====
section
/-! DEFINITION. The operations over memory, registers, stack and framebuffer that the meanings share; taking a fault
(60_exceptions.md R183) and the return from one (`Reset`, R184, R210). -/

namespace Sys2Proof.Machine

/-- What a step answers. -/
abbrev Result := Host.Outcome State Fault Refusal

/-! ### Memory (20_memory.md) -/

/-- What an address reads as when memory lists nothing for it: its contents after reset (10_state.md R24), the font at
`0x000..0x04F` and `0x00` elsewhere. -/
def resetByte (font : Vector Byte Config.fontSize) (a : Nat) : Byte :=
  if h : a < Config.fontSize then font[a] else 0

/-- The listed byte of an address, if there is one. -/
def Memory.find : Memory → Nat → Option Byte
  | [], _ => none
  | c :: rest, a => if c.1 = a then some c.2 else Memory.find rest a

/-- The byte at an address. -/
def Memory.read (font : Vector Byte Config.fontSize) (m : Memory) (a : Nat) : Byte :=
  (Memory.find m a).getD (resetByte font a)

/-- List a byte at its place in the order of addresses. -/
def Memory.insert : Memory → Nat → Byte → Memory
  | [], a, b => [(a, b)]
  | c :: rest, a, b =>
    if a < c.1 then (a, b) :: c :: rest
    else if a = c.1 then (a, b) :: rest
    else c :: Memory.insert rest a b

/-- List nothing for an address. -/
def Memory.erase : Memory → Nat → Memory
  | [], _ => []
  | c :: rest, a => if c.1 = a then Memory.erase rest a else c :: Memory.erase rest a

/-- Store a byte, keeping the canonical form: a byte equal to what an unlisted address reads as is not listed. -/
def Memory.write (font : Vector Byte Config.fontSize) (m : Memory) (a : Nat) (b : Byte) : Memory :=
  if b = resetByte font a then Memory.erase m a else Memory.insert m a b

/-- Store consecutive bytes from an address up. -/
def Memory.writeBytes (font : Vector Byte Config.fontSize) : Memory → Nat → List Byte → Memory
  | m, _, [] => m
  | m, a, b :: bs => Memory.writeBytes font (Memory.write font m a b) (a + 1) bs

/-- The memory whose byte at every address below 4096 is given by a function. Irreducible, so that no proof unrolls it
by accident. -/
@[irreducible] def Memory.ofBytes (font : Vector Byte Config.fontSize) (f : Nat → Byte) : Memory :=
  (List.range Config.memSize).filterMap fun a => if f a = resetByte font a then none else some (a, f a)

/-- The canonical form: addresses strictly rising and below 4096 (R40), no entry equal to what an unlisted address
reads as. -/
abbrev Memory.wf (font : Vector Byte Config.fontSize) (m : Memory) : Prop :=
  List.Pairwise (fun c d => c.1 < d.1) m ∧ ∀ c ∈ m, c.1 < Config.memSize ∧ c.2 ≠ resetByte font c.1

/-- The byte at an address, in a state. -/
def State.readMem (s : State) (a : Nat) : Byte := Memory.read s.env.font s.mem a

/-- The state with a byte stored. -/
def State.writeMem (s : State) (a : Nat) (b : Byte) : State := { s with mem := Memory.write s.env.font s.mem a b }

/-- `MemRead(addr, 1)` (00_scope.md R8): faults from 4096 up, never wraps (R42). -/
def memRead (s : State) (a : Nat) : Except Fault Byte :=
  if a < Config.memSize then .ok (s.readMem a) else .error .dataAddrRange

/-- `MemWrite(addr, 1, v)` (R8, R42). No region is protected (R44). -/
def memWrite (s : State) (a : Nat) (b : Byte) : Except Fault State :=
  if a < Config.memSize then .ok (s.writeMem a b) else .error .dataAddrRange

/-- `n` single-byte reads at `a, a + 1, ...` (R48); none for `n = 0`, whatever `a`. -/
def loadBytes (s : State) : Nat → Nat → Except Fault (List Byte)
  | _, 0 => .ok []
  | a, n + 1 =>
    match memRead s a with
    | .error c => .error c
    | .ok b =>
      match loadBytes s (a + 1) n with
      | .error c => .error c
      | .ok bs => .ok (b :: bs)

/-- Single-byte writes at `a, a + 1, ...` (R48). -/
def storeBytes : State → Nat → List Byte → Except Fault State
  | s, _, [] => .ok s
  | s, a, b :: bs =>
    match memWrite s a b with
    | .error c => .error c
    | .ok t => storeBytes t (a + 1) bs

/-! ### Registers (10_state.md R10, R12) -/

/-- `V[x]`. -/
def State.reg (s : State) (x : Reg) : Byte := s.v[x]

/-- `V[x] <- b`. -/
def State.setReg (s : State) (x : Reg) (b : Byte) : State := { s with v := s.v.set x.val b x.isLt }

/-- VF, register 15 (R12). -/
def vf : Reg := 15

/-- A result to `V[x]`, then a flag to VF, in this order (R13, decision D9, notes/assumptions/9). -/
def State.setRegFlag (s : State) (x : Reg) (result flag : Byte) : State := (s.setReg x result).setReg vf flag

/-- `V[k], V[k+1], ... <- bs` (42_index_memory.md R125). -/
def loadRegs : Vector Byte 16 → Nat → List Byte → Vector Byte 16
  | v, _, [] => v
  | v, k, b :: bs => loadRegs (v.setIfInBounds k b) (k + 1) bs

/-- `V[0], ..., V[x]`, V0 first (R124). -/
def State.regsUpTo (s : State) (x : Reg) : List Byte := s.v.toList.take (x.val + 1)

/-! ### Program counter (R17) -/

/-- `PC <- target`. -/
def State.jumpTo (s : State) (target : Word) : State := { s with pc := target }

/-- `if c then PC <- PC + 2`: pass over one instruction. -/
def State.skipIf (s : State) (c : Bool) : State := if c then { s with pc := s.pc + 2 } else s

/-- `PC <- PC + 2`: past the word fetched (R16). -/
def State.advancePc (s : State) : State := { s with pc := s.pc + 2 }

/-- `PC <- PC - 2`: back to the instruction itself. -/
def State.rewind (s : State) : State := { s with pc := s.pc - 2 }

/-! ### Call stack (10_state.md R20; mechanics: decision D7, notes/assumptions/16) -/

/-- Push: fault when 16 entries are in use, else store at `STACK[SP]` and count it. -/
def push (s : State) (w : Word) : Except Fault State :=
  if h : s.sp.val < 16 then
    .ok { s with stack := s.stack.set s.sp.val w h, sp := ⟨s.sp.val + 1, by omega⟩ }
  else .error .stackOverflow

/-- Pop: fault when none is in use, else uncount the top entry and give it; it keeps its content. -/
def pop (s : State) : Except Fault (Word × State) :=
  if h : s.sp.val = 0 then .error .stackUnderflow
  else .ok (s.stack[s.sp.val - 1]'(by omega), { s with sp := ⟨s.sp.val - 1, by omega⟩ })

/-! ### Framebuffer (20_memory.md R52, 43_display.md R142) -/

/-- The cell of index `i` of a framebuffer: row `i / 64`, column `i % 64`. -/
def cellOf (fb : FrameBuffer) (i : Fin 2048) : Bool := (fb[i.val / 64]'(by omega)).getLsbD (i.val % 64)

/-- `FB[i]`. -/
def State.cell (s : State) (i : Fin 2048) : Bool := cellOf s.fb i

/-- `get_index(x, y)`: row-major, `y*64 + x`. -/
def getIndex (x : Fin 64) (y : Fin 32) : Fin 2048 := ⟨y.val * 64 + x.val, by omega⟩

/-- `set_pixel` with the value true, which is the only value draw writes (R141). -/
def setCell (fb : FrameBuffer) (i : Fin 2048) : FrameBuffer :=
  fb.set (i.val / 64) ((fb[i.val / 64]'(by omega)) ||| BitVec.twoPow 64 (i.val % 64)) (by omega)

/-- `clear()`: every cell false. -/
def clearCells : FrameBuffer := Vector.replicate 32 0

/-! ### Faults (60_exceptions.md R183) -/

/-- Fault entry: `FAULT <- 1`, `CAUSE <- code`, and every other piece of the core's state unspecified, so that nothing
says whether the event's earlier writes were made (R183(a)): free values of `Config`. What the host holds stands, but
for the count of free values. -/
def enterFault (c : Fault) (s : State) : State where
  mem := Memory.ofBytes s.env.font (Config.lostByte s.env.draws)
  v := Config.lostRegs s.env.draws
  i := Config.lostIndex s.env.draws
  pc := Config.lostPc s.env.draws
  stack := Config.lostStack s.env.draws
  sp := Config.lostSp s.env.draws
  dt := Config.lostDelay s.env.draws
  st := Config.lostSound s.env.draws
  key := Config.lostKeys s.env.draws
  fb := Config.lostCells s.env.draws
  fault := true
  cause := some c
  env := { s.env with draws := s.env.draws + 1 }

/-- `raise <Fault>` (00_scope.md R8): the event ends at once in the fault state, a next state. -/
def raise (c : Fault) (s : State) : Result := .next (enterFault c s)

/-- The state an operation gives, or the fault it raises in the event that began at `s`. -/
def orRaise (s : State) : Except Fault State → Result
  | .ok t => .next t
  | .error c => raise c s

/-- The only exit from a fault, and the restart at any time (R184, 70_reset_and_hazards.md R210): the reset state, with
what stands outside the core as it was (notes/assumptions/26). -/
def resetCore (s : State) : State := { State.reset with env := s.env }

/-- The number of a cause (R181). -/
def Fault.code : Fault → Nat
  | .stackOverflow => 1
  | .stackUnderflow => 2
  | .fetchAddrRange => 3
  | .dataAddrRange => 4
  | .loadTooLarge => 5
  | .keyIndexRange => 6
  | .reservedFetch => 7

/-- CAUSE as a number, 0 when there is none (R181). -/
def State.causeCode (s : State) : Nat := (s.cause.map Fault.code).getD 0

/-! ### What the host hands over (00_scope.md R7, 10_state.md R25) -/

/-- The state in which a `Tick(r)` runs: the host has handed over `r`. -/
def State.withRnd (s : State) (r : Byte) : State := { s with env := { s.env with rnd := r } }

/-- The events to come. -/
def State.withSchedule (s : State) (es : List HostEvent) : State := { s with env := { s.env with schedule := es } }

/-- The events that recur once the schedule is done. -/
def State.withRecurring (s : State) (ps : List PlannedEvent) : State := { s with env := { s.env with recurring := ps } }

/-- One free value more has been used. -/
def State.countDraw (s : State) : State := { s with env := { s.env with draws := s.env.draws + 1 } }

/-! ### Outputs (45_unrecognized.md R171, 60_exceptions.md R196) -/

/-- The host receives an output. Nothing in the core reads it. -/
def State.emit (s : State) (o : HostOutput) : State := { s with env := { s.env with outbox := o :: s.env.outbox } }

end Sys2Proof.Machine
end

