-- ==== Sys2Proof/Machine/Operands.lean ====
section
/-! DEFINITION. Operand forms: the effective address of a data access (20_memory.md R43), a key index
(44_keys_timers.md R156), the cells of a sprite (43_display.md R141), the decimal digits of bcd-store
(42_index_memory.md R123), the zero-extended immediates (30_encoding.md R63). -/

namespace Sys2Proof.Machine

/-- `I` as an address: a natural number, so that `I + k` neither wraps at 65536 nor at 4096 (R43, decision D13,
notes/assumptions/13). -/
def State.base (s : State) : Nat := s.i.toNat

/-- A byte as a key index; 16 and more fault and are not masked (R156, decision D5, notes/assumptions/17). -/
def keyIndex (b : Byte) : Except Fault (Fin 16) :=
  if h : b.toNat < 16 then .ok ⟨b.toNat, h⟩ else .error .keyIndexRange

/-- `KEY[k]`. -/
def State.keyFlag (s : State) (k : Fin 16) : Bool := s.key[k]

/-- An effect that depends on the key whose number is `V[x]`. -/
def withKey (s : State) (x : Reg) (f : Bool → State) : Except Fault State :=
  match keyIndex (s.reg x) with
  | .error c => .error c
  | .ok k => .ok (f (s.keyFlag k))

/-- The cell a sprite's bit at a row and column reaches: `((vx + col) mod 64, (vy + row) mod 32)` (R141). -/
def spriteCell (vx vy : Byte) (row col : Nat) : Fin 2048 :=
  getIndex ⟨(vx.toNat + col) % 64, by omega⟩ ⟨(vy.toNat + row) % 32, by omega⟩

/-- The columns of a sprite row; column 0 is bit 7, the leftmost pixel (R141). -/
def spriteColumns : List Nat := [0, 1, 2, 3, 4, 5, 6, 7]

/-- The cells the set bits of one sprite row reach, left to right. -/
def rowCells (vx vy : Byte) (row : Nat) (b : Byte) : List (Fin 2048) :=
  (spriteColumns.filter fun col => b.getLsbD (7 - col)).map (spriteCell vx vy row)

/-- The cells the set bits of a sprite reach, row by row from row `row`. -/
def spriteCells (vx vy : Byte) : Nat → List Byte → List (Fin 2048)
  | _, [] => []
  | row, b :: bs => rowCells vx vy row b ++ spriteCells vx vy (row + 1) bs

/-- draw's loop over the cells it reaches, in order: note a cell already true, force it to true (R141). -/
def paint : FrameBuffer × Bool → List (Fin 2048) → FrameBuffer × Bool
  | acc, [] => acc
  | (fb, hit), i :: is => paint (setCell fb i, hit || cellOf fb i) is

/-- Hundreds, tens, ones, one binary digit a byte (R123). -/
def bcdDigits (a : Byte) : List Byte :=
  [BitVec.ofNat 8 (a.toNat / 100), BitVec.ofNat 8 (a.toNat / 10 % 10), BitVec.ofNat 8 (a.toNat % 10)]

end Sys2Proof.Machine
end

