-- ==== Sys2Proof/Machine/Alu.lean ====
section
/-! DEFINITION. Register, arithmetic and logic instructions (41_alu.md). Arithmetic is 8-bit wrapping (R100); operands
are read first, the result goes to `V[x]`, the flag to VF last (`State.setRegFlag`, R13). -/

namespace Sys2Proof.Machine

/-- `set-imm Vx, nn` (R101). -/
def execSetImm (x : Reg) (nn : Byte) (s : State) : Result := .next (s.setReg x nn)

/-- `add-imm Vx, nn` (R102): 8-bit immediate (decision D10, notes/assumptions/10), no flag. -/
def execAddImm (x : Reg) (nn : Byte) (s : State) : Result := .next (s.setReg x (s.reg x + nn))

/-- `set-reg Vx, Vy` (R103). -/
def execSetReg (x y : Reg) (s : State) : Result := .next (s.setReg x (s.reg y))

/-- `or Vx, Vy` (R104): no flag. -/
def execOrReg (x y : Reg) (s : State) : Result := .next (s.setReg x (s.reg x ||| s.reg y))

/-- `and Vx, Vy` (R105): no flag. -/
def execAndReg (x y : Reg) (s : State) : Result := .next (s.setReg x (s.reg x &&& s.reg y))

/-- `xor Vx, Vy` (R106): no flag. -/
def execXorReg (x y : Reg) (s : State) : Result := .next (s.setReg x (s.reg x ^^^ s.reg y))

/-- `add-reg Vx, Vy` (R107). -/
def execAddReg (x y : Reg) (s : State) : Result :=
  .next (s.setRegFlag x (s.reg x + s.reg y) (carryFlag (s.reg x) (s.reg y)))

/-- `sub-reg Vx, Vy` (R108): `Vx - Vy`. -/
def execSubReg (x y : Reg) (s : State) : Result :=
  .next (s.setRegFlag x (s.reg x - s.reg y) (noBorrowFlag (s.reg x) (s.reg y)))

/-- `shr Vx` (R109): a logical shift of `V[x]`; `y` is ignored. -/
def execShr (x : Reg) (s : State) : Result := .next (s.setRegFlag x (s.reg x >>> 1) (shrFlag (s.reg x)))

/-- `subn-reg Vx, Vy` (R110): `Vy - Vx`. -/
def execSubnReg (x y : Reg) (s : State) : Result :=
  .next (s.setRegFlag x (s.reg y - s.reg x) (noBorrowFlag (s.reg y) (s.reg x)))

/-- `shl Vx` (R111); `y` is ignored. -/
def execShl (x : Reg) (s : State) : Result := .next (s.setRegFlag x (s.reg x <<< 1) (shlFlag (s.reg x)))

/-- `random Vx, nn` (R112): the byte `r` of this `Tick`, ANDed with `nn`. -/
def execRandom (x : Reg) (nn : Byte) (s : State) : Result := .next (s.setReg x (s.env.rnd &&& nn))

end Sys2Proof.Machine
end

