-- ==== Sys2Proof/Machine/Control.lean ====
section
/-! DEFINITION. Control flow (40_control_flow.md): return, jump, call, the four register and immediate skips,
jump-offset. `s.pc` is the value after fetch, the instruction's address plus 2 (R88). -/

namespace Sys2Proof.Machine

/-- `return` (R80): pop into PC. -/
def execRet (s : State) : Result :=
  match pop s with
  | .error c => raise c s
  | .ok (target, t) => .next (t.jumpTo target)

/-- `jump nnn` (R81). -/
def execJump (nnn : Addr12) (s : State) : Result := .next (s.jumpTo (zext16 nnn))

/-- `call nnn` (R82): push the return address, which is PC after fetch. -/
def execCall (nnn : Addr12) (s : State) : Result :=
  match push s s.pc with
  | .error c => raise c s
  | .ok t => .next (t.jumpTo (zext16 nnn))

/-- `skip-eq-imm Vx, nn` (R83). -/
def execSkipEqImm (x : Reg) (nn : Byte) (s : State) : Result := .next (s.skipIf (s.reg x == nn))

/-- `skip-neq-imm Vx, nn` (R84). -/
def execSkipNeqImm (x : Reg) (nn : Byte) (s : State) : Result := .next (s.skipIf (s.reg x != nn))

/-- `skip-eq-reg Vx, Vy` (R85). -/
def execSkipEqReg (x y : Reg) (s : State) : Result := .next (s.skipIf (s.reg x == s.reg y))

/-- `skip-neq-reg Vx, Vy` (R86). -/
def execSkipNeqReg (x y : Reg) (s : State) : Result := .next (s.skipIf (s.reg x != s.reg y))

/-- `jump-offset nnn` (R87): always V0; the sum is not reduced modulo 4096. -/
def execJumpOffset (nnn : Addr12) (s : State) : Result := .next (s.jumpTo (zext16 (s.reg 0) + zext16 nnn))

end Sys2Proof.Machine
end

