-- ==== Sys2Proof/Machine/Display.lean ====
section
/-! DEFINITION. Display instructions (43_display.md): clear-screen, and draw, which sets cells and never toggles them. -/

namespace Sys2Proof.Machine

/-- `clear-screen` (R140). -/
def execClearScreen (s : State) : Result := .next { s with fb := clearCells }

/-- The effect of draw once the cells its sprite reaches are known: they become true, and VF is the collision, written
last (R141, decision D9). -/
def State.painted (s : State) (cells : List (Fin 2048)) : State :=
  { s with fb := (paint (s.fb, false) cells).1 }.setReg vf (collisionFlag (paint (s.fb, false) cells).2)

/-- `draw Vx, Vy, n` (R141): `V[x]` and `V[y]` are read before anything is written; with `n = 0` nothing is read and VF
becomes 0 (decision D37, notes/assumptions/20). -/
def execDraw (x y : Reg) (n : Nat) (s : State) : Result :=
  match loadBytes s s.base n with
  | .error c => raise c s
  | .ok rows => .next (s.painted (spriteCells (s.reg x) (s.reg y) 0 rows))

end Sys2Proof.Machine
end

