-- ==== Sys2Proof/Machine/IndexMemory.lean ====
section
/-! DEFINITION. Index-register and memory instructions (42_index_memory.md). One addressing mode, `I + k`, without
wrap; no load or store changes I, none writes VF as a flag (R126). -/

namespace Sys2Proof.Machine

/-- `set-index nnn` (R120). -/
def execSetIndex (nnn : Addr12) (s : State) : Result := .next { s with i := zext16 nnn }

/-- `add-to-index Vx` (R121): wraps at 65536, no flag (decision D12, notes/assumptions/12). -/
def execAddToIndex (x : Reg) (s : State) : Result := .next { s with i := s.i + zext16 (s.reg x) }

/-- `font-char-addr Vx` (R122): no mask (decision D14, notes/assumptions/14). -/
def execFontCharAddr (x : Reg) (s : State) : Result := .next { s with i := zext16 (s.reg x) * 5 }

/-- `bcd-store Vx` (R123). -/
def execBcdStore (x : Reg) (s : State) : Result := orRaise s (storeBytes s s.base (bcdDigits (s.reg x)))

/-- `reg-dump Vx` (R124): I unchanged (decision D15, notes/assumptions/15). -/
def execRegDump (x : Reg) (s : State) : Result := orRaise s (storeBytes s s.base (s.regsUpTo x))

/-- `reg-load Vx` (R125): I unchanged (decision D15, notes/assumptions/15). -/
def execRegLoad (x : Reg) (s : State) : Result :=
  match loadBytes s s.base (x.val + 1) with
  | .error c => raise c s
  | .ok bs => .next { s with v := loadRegs s.v 0 bs }

end Sys2Proof.Machine
end

