-- ==== Sys2Proof/Machine/KeysTimers.lean ====
section
/-! DEFINITION. Key and timer instructions (44_keys_timers.md). The key index is the value of `V[x]` (R156); no
instruction counts a timer down (R157). -/

namespace Sys2Proof.Machine

/-- `skip-key-pressed Vx` (R150). -/
def execSkipKeyPressed (x : Reg) (s : State) : Result := orRaise s (withKey s x fun down => s.skipIf down)

/-- `skip-key-not-pressed Vx` (R151). -/
def execSkipKeyNotPressed (x : Reg) (s : State) : Result := orRaise s (withKey s x fun down => s.skipIf !down)

/-- `get-delay Vx` (R153). -/
def execGetDelay (x : Reg) (s : State) : Result := .next (s.setReg x s.dt)

/-- `wait-key Vx` (R152): back to itself while the one key numbered `V[x]` is up; no register is written (decision D11,
notes/assumptions/11). -/
def execWaitKey (x : Reg) (s : State) : Result := orRaise s (withKey s x fun down => if down then s else s.rewind)

/-- `set-delay Vx` (R154). -/
def execSetDelay (x : Reg) (s : State) : Result := .next { s with dt := s.reg x }

/-- `set-sound Vx` (R155). -/
def execSetSound (x : Reg) (s : State) : Result := .next { s with st := s.reg x }

end Sys2Proof.Machine
end

