-- ==== Sys2Proof/Machine/Unrecognized.lean ====
section
/-! DEFINITION. The unrecognized instruction (45_unrecognized.md R170): every word outside the 34 rows. It is no fault
and no refusal: PC goes back to the word and the host receives a diagnostic. -/

namespace Sys2Proof.Machine

/-- The stall of an unrecognized word `w`. -/
def stall (w : Word) (s : State) : Result := .next (s.rewind.emit (.diag w))

end Sys2Proof.Machine
end

