-- ==== Sys2Proof/Machine/Events.lean ====
section
/-! DEFINITION. Fetch (10_state.md R16) and the host's six events (60_exceptions.md R190 to R196), each atomic, and
which event comes next (R191, notes/assumptions/1). -/

namespace Sys2Proof.Machine

/-! ### Fetch -/

/-- Fetch (R16): fault below `0x200` (decision D6, notes/assumptions/18) and where `PC + 1 >= 4096`; else the
big-endian word at PC, with PC past it. Any parity of PC will do (20_memory.md R47). -/
def fetch (s : State) : Except Fault (Word × State) :=
  if s.pc.toNat < Config.progBase then .error .reservedFetch
  else if s.pc.toNat + 1 ≥ Config.memSize then .error .fetchAddrRange
  else .ok (wordOfBytes (s.readMem s.pc.toNat) (s.readMem (s.pc.toNat + 1)), s.advancePc)

/-! ### The events -/

/-- Execute a fetched word: its instruction, or the stall of an unrecognized word (R194, R170). -/
def executeWord (w : Word) (s : State) : Result :=
  match decodeWord w with
  | .ok i => exec i s
  | .error _ => stall w s

/-- `Tick(r)` outside the fault state (R194): one fetch, one execute. -/
def tick (r : Byte) (s : State) : Result :=
  match fetch (s.withRnd r) with
  | .error c => raise c (s.withRnd r)
  | .ok (w, t) => executeWord w t

/-- `Load(bytes)` outside the fault state (R192; on a running core too, decision D23, notes/assumptions/22). -/
def load (bytes : List Byte) (s : State) : Result :=
  if bytes.length > Config.maxProg then raise .loadTooLarge s
  else .next { s with mem := Memory.writeBytes s.env.font s.mem Config.progBase bytes }

/-- `SetKey(k, b)` outside the fault state (R193). -/
def setKey (k : Fin 16) (b : Bool) (s : State) : Result := .next { s with key := s.key.set k.val b k.isLt }

/-- A timer one count down, resting at 0 (R195). -/
def countDown (t : Byte) : Byte := if t.toNat > 0 then t - 1 else t

/-- `TickTimers` outside the fault state (R195). -/
def tickTimers (s : State) : Result := .next { s with dt := countDown s.dt, st := countDown s.st }

/-- `ReadDisplay` (R196): the host receives the grid, its width and its height. -/
def readDisplay (s : State) : Result := .next (s.emit (.display Config.width Config.height s.fb))

/-- `ReadDisplay` in the fault state: unspecified cells, fresh ones each time (R183(a), notes/assumptions/4). -/
def readLostDisplay (s : State) : Result :=
  .next (s.countDraw.emit
    (.display Config.width Config.height (Config.lostCells s.env.draws)))

/-- An event outside the fault state. -/
def liveEvent (e : HostEvent) (s : State) : Result :=
  match e with
  | .reset => .next (resetCore s)
  | .load bytes => load bytes s
  | .setKey k b => setKey k b s
  | .tick r => tick r s
  | .tickTimers => tickTimers s
  | .readDisplay => readDisplay s

/-- An event in the fault state: only `Reset` has an effect; the others change nothing and emit no diagnostic (R183). -/
def faultedEvent (e : HostEvent) (s : State) : Result :=
  match e with
  | .reset => .next (resetCore s)
  | .readDisplay => readLostDisplay s
  | .load _ => .next s
  | .setKey _ _ => .next s
  | .tick _ => .next s
  | .tickTimers => .next s

/-- One host event on the core. -/
def hostEvent (e : HostEvent) (s : State) : Result :=
  if s.fault then faultedEvent e s else liveEvent e s

/-- Status the host may read beside the events: DT and ST (60_exceptions.md R197). -/
def State.timerStatus (s : State) : Byte × Byte := (s.dt, s.st)

/-! ### The schedule -/

/-- A planned event's turn: the event and the state that has used its byte, if it is a free one (R112). -/
def plannedEvent (p : PlannedEvent) (s : State) : HostEvent × State :=
  match p with
  | .given e => (e, s)
  | .tickAnyByte => (.tick (Config.randomByte s.env.draws), s.countDraw)

/-- The host's next event and the state without it (R191; notes/assumptions 1 and 2): the first of the schedule; when that
is empty the first of the recurring plan, which goes to the plan's end; with no plan either, a free choice. -/
def nextEvent (s : State) : HostEvent × State :=
  match s.env.schedule with
  | e :: rest => (e, s.withSchedule rest)
  | [] =>
    match s.env.recurring with
    | p :: ps => plannedEvent p (s.withRecurring (ps ++ [p]))
    | [] => (Config.hostChoice s.env.draws, s.countDraw)

/-- A word placed where the next step fetches it: the bytes at PC (at `0x200` if no fetch is possible at PC), no fault,
and the `Tick` that runs it next in the schedule (notes/assumptions/25). -/
def placeWord (s : State) (w : Word) : State :=
  let pc : Word := if s.pc.toNat < Config.progBase ∨ s.pc.toNat + 1 ≥ Config.memSize then 0x200 else s.pc
  { s with
    pc := pc
    fault := false
    cause := none
    env := { s.env with schedule := [.tick (Config.randomByte s.env.draws)], draws := s.env.draws + 1 }
    mem := Memory.writeBytes s.env.font s.mem pc.toNat [(bytesOfWord w).1, (bytesOfWord w).2] }

end Sys2Proof.Machine
end

