-- ==== Sys2Proof/Machine/Step.lean ====
section
/-! DEFINITION. One step: the host's next event (60_exceptions.md R190, R191) takes effect. A step of this model always
answers a next state: faults are states (R183), and every instruction has its meaning. -/

namespace Sys2Proof.Machine

/-- One step of the machine. -/
def step (s : State) : Host.Outcome State Fault Refusal := hostEvent (nextEvent s).1 (nextEvent s).2

/-- The state whose very next step fetches and runs the opcode table's word `w`. -/
def State.withFetchWord (s : State) (nbits w : Nat) : State := placeWord s (tableWord nbits w)

end Sys2Proof.Machine
end

