-- ==== Sys2Proof/Safety.lean ====
section
/-! DEFINITION. The terms claims are stated in: what an instruction leaves unchanged (the frame), the invariant of the
machine, runs under a schedule, the end of a run and a safe run. -/

namespace Sys2Proof.Machine

/-! ### Frames -/

/-- The pieces of state besides the general registers and memory. -/
inductive Piece where
  | index | pc | stack | sp | delay | sound | keys | display | faultBit | cause | env
  deriving DecidableEq, Repr

/-- The piece is the same before and after. -/
def Piece.Same : Piece → State → State → Prop
  | .index, s, t => t.i = s.i
  | .pc, s, t => t.pc = s.pc
  | .stack, s, t => t.stack = s.stack
  | .sp, s, t => t.sp = s.sp
  | .delay, s, t => t.dt = s.dt
  | .sound, s, t => t.st = s.st
  | .keys, s, t => t.key = s.key
  | .display, s, t => t.fb = s.fb
  | .faultBit, s, t => t.fault = s.fault
  | .cause, s, t => t.cause = s.cause
  | .env, s, t => t.env = s.env

/-- Every piece but those named is unchanged. -/
def OnlyPieces (changed : List Piece) (s t : State) : Prop := ∀ p : Piece, p ∉ changed → p.Same s t

/-- Every general register but those named is unchanged. -/
def OnlyRegs (changed : List Reg) (s t : State) : Prop := ∀ j : Reg, j ∉ changed → t.reg j = s.reg j

/-- Every byte of memory reads as before. -/
def SameMemory (s t : State) : Prop := ∀ a : Nat, t.readMem a = s.readMem a

/-- Every byte of memory outside `a, ..., a + n - 1` reads as before. -/
def OnlyBytes (a n : Nat) (s t : State) : Prop := ∀ b : Nat, b < a ∨ a + n ≤ b → t.readMem b = s.readMem b

/-- The same core: nothing but what stands outside the core may differ. -/
def SameCore (s t : State) : Prop := { t with env := s.env } = s

/-- The event ended in a fault with this cause (60_exceptions.md R183): FAULT and CAUSE are set; of the rest nothing is
said but what the host holds (no output was emitted, the schedule, the plan and the font stand). -/
def Faulted (c : Fault) (s t : State) : Prop :=
  t.fault = true ∧ t.cause = some c ∧ t.env.outbox = s.env.outbox ∧ t.env.schedule = s.env.schedule ∧
    t.env.recurring = s.env.recurring ∧ t.env.font = s.env.font

/-- Nothing but the program counter may differ. -/
def OnlyPc (s t : State) : Prop := OnlyPieces [.pc] s t ∧ OnlyRegs [] s t ∧ SameMemory s t

/-- Nothing but the named registers may differ: the frame of the instructions that write registers only. -/
def OnlyRegsWritten (changed : List Reg) (s t : State) : Prop :=
  OnlyPieces [] s t ∧ OnlyRegs changed s t ∧ SameMemory s t

/-- Nothing but the named pieces may differ: no register and no byte of memory. -/
def OnlyPiecesWritten (changed : List Piece) (s t : State) : Prop :=
  OnlyPieces changed s t ∧ OnlyRegs [] s t ∧ SameMemory s t

/-- Nothing but the bytes `a, ..., a + n - 1` may differ: the frame of the storing instructions. -/
def OnlyBytesWritten (a n : Nat) (s t : State) : Prop := OnlyPieces [] s t ∧ OnlyRegs [] s t ∧ OnlyBytes a n s t

/-- A set bit of the sprite of `draw Vx, Vy, n` reaches the cell: row `row` is the byte at `I + row`, column `col` is its
bit `7 - col`, and the coordinates wrap (43_display.md R141). -/
def SpriteCovers (s : State) (x y : Reg) (n : Nat) (k : Fin 2048) : Prop :=
  ∃ row, row < n ∧ ∃ col, col < 8 ∧ (s.readMem (s.base + row)).getLsbD (7 - col) = true ∧
    k.val = ((s.reg y).toNat + row) % 32 * 64 + ((s.reg x).toNat + col) % 64

/-! ### The invariant -/

/-- A state's memory is in canonical form. -/
abbrev State.memWf (s : State) : Prop := Memory.wf s.env.font s.mem

/-- What holds in every state a run reaches: memory is canonical; FAULT is 1 iff CAUSE is not 0; and outside the fault
state PC is at most `0x10FE` and every live stack entry is the address after a call, `0x202..0x1000` (10_state.md R18,
R20, R22). -/
structure Inv (s : State) : Prop where
  memory : s.memWf
  latch : s.fault = s.cause.isSome
  pcRange : s.fault = false → s.pc.toNat ≤ 0x10FE
  liveEntries : s.fault = false → ∀ j : Fin 16, j.val < s.sp.val → 0x202 ≤ s.stack[j].toNat ∧ s.stack[j].toNat ≤ 0x1000

/-! ### Runs -/

/-- The host performs events one after the other (60_exceptions.md R191). -/
def runEvents : List HostEvent → State → Result
  | [], s => .next s
  | e :: es, s =>
    match hostEvent e s with
    | .next t => runEvents es t
    | .fault f => .fault f
    | .refused r => .refused r

/-- The first `n` events of an infinite schedule. A claim takes the schedule as its parameter (R191: "any finite or infinite
sequence is a legal schedule"), and says what recurs in it if it needs that. -/
def runSchedule (schedule : Nat → HostEvent) (n : Nat) (s : State) : Result := runEvents ((List.range n).map schedule) s

/-- The first `n` steps, whose events the state itself plans. -/
def runSteps : Nat → State → Result
  | 0, s => .next s
  | n + 1, s =>
    match step s with
    | .next t => runSteps n t
    | .fault f => .fault f
    | .refused r => .refused r

/-- The infinite schedule of a state that plans a finite beginning and then the events `e, es, e, es, ...` for ever. -/
def unrolled (beginning : List HostEvent) (e : HostEvent) (es : List HostEvent) (n : Nat) : HostEvent :=
  if n < beginning.length then beginning.getD n e else (e :: es).getD ((n - beginning.length) % (es.length + 1)) e

/-- The word at an address (big-endian, 20_memory.md R45). -/
def State.wordAt (s : State) (a : Nat) : Word := wordOfBytes (s.readMem a) (s.readMem (a + 1))

/-- A fetch at PC succeeds (10_state.md R18: "only for `0x200 <= PC <= 4094`"). -/
abbrev State.canFetch (s : State) : Prop := 0x200 ≤ s.pc.toNat ∧ s.pc.toNat ≤ 4094

/-- The usual value of the parameter `END_OF_RUN` (70_reset_and_hazards.md R222, notes/assumptions/23): the word at PC
is a jump to PC itself. -/
def jumpsToSelf (s : State) : Prop :=
  s.fault = false ∧ s.canFetch ∧ decodeWord (s.wordAt s.pc.toNat) = .ok (.jump (s.pc.extractLsb' 0 12))

/-- A run under a schedule ends well: it ends outside the fault state (R183: "A faulted state is never the end of a
successful run"), at a state the claim's `endOfRun` accepts. -/
def SafeRun (endOfRun : State → Prop) (events : List HostEvent) (s : State) : Prop :=
  ∃ t, runEvents events s = .next t ∧ t.fault = false ∧ endOfRun t

end Sys2Proof.Machine
end

