-- ==== Sys2Proof/Certificates/Slice0/Obligations.lean ====
section
/-! DEFINITION. The statements for the provers. Each names the rule or the section of the spec it rests on; where a
clause rests on one of the spec's own decisions (D<n> of 92_eei_decisions.md) or on this model's, its docstring names the
log entry. `s.pc` in a statement about `exec` is PC after the fetch advance (10_state.md R16). The bit patterns in the
decoding clauses of 29 instructions are the spec's G1 (notes/assumptions/7). -/

open Sys2Proof Sys2Proof.Machine

/-! ### Encoding -/

/-- The instruction words that stand in the source (30_encoding.md R66) decode to the instructions it says, and so do
four words of the map's other formats. -/
def Obligations.AnchoredWordsDecode : Prop :=
  decodeWord 0x00E0 = .ok .clearScreen ∧ decodeWord 0x6A05 = .ok (.setImm 10 5) ∧
  decodeWord 0x6B03 = .ok (.setImm 11 3) ∧ decodeWord 0x8AB4 = .ok (.addReg 10 11) ∧
  decodeWord 0x00EE = .ok .ret ∧ decodeWord 0xF129 = .ok (.fontCharAddr 1) ∧
  decodeWord 0x220A = .ok (.call 0x20A) ∧ decodeWord 0xD012 = .ok (.draw 0 1 2) ∧
  decodeWord 0xE39E = .ok (.skipKeyPressed 3) ∧ decodeWord 0xF265 = .ok (.regLoad 2)

/-- Decoding what the encoder writes gives the instruction back, in words and in bytes with any bytes after it. -/
def Obligations.DecodeEncodeRoundTrip : Prop :=
  ∀ i : Instr, WellFormed i = true →
    decodeWord (encode i) = .ok i ∧ ∀ rest : List Byte, decodeBytes (encodeBytes i ++ rest) = .ok (i, rest)

/-- Every word has exactly one outcome: the one row of R64 it matches and that row's instruction, or no row and the
rejection that names it (R64, R65). -/
def Obligations.DecodeAgreesWithOpcodeMap : Prop :=
  ∀ w : Word,
    (∃ i, decodeWord w = .ok i ∧ WellFormed i = true ∧ opcodeTable.filter (fun r => r.matches w) = [i.row]) ∨
    (decodeWord w = .error (.unrecognized w) ∧ opcodeTable.filter (fun r => r.matches w) = [])

/-- The unrecognized words are those R67 lists (which words these are is the spec's decision D17, notes/assumptions/8). -/
def Obligations.UnrecognizedWordsAreThese : Prop :=
  ∀ w : Word, decodeWord w = .error (.unrecognized w) ↔
    (fieldOp w = 0x0 ∧ w ≠ 0x00E0 ∧ w ≠ 0x00EE) ∨ (fieldOp w = 0x5 ∧ fieldN w ≠ 0) ∨
    (fieldOp w = 0x8 ∧ (8 ≤ (fieldN w).toNat ∧ (fieldN w).toNat ≤ 0xD ∨ fieldN w = 0xF)) ∨
    (fieldOp w = 0x9 ∧ fieldN w ≠ 0) ∨ (fieldOp w = 0xE ∧ fieldNN w ≠ 0x9E ∧ fieldNN w ≠ 0xA1) ∨
    (fieldOp w = 0xF ∧ fieldNN w ∉ [(0x07 : Byte), 0x0A, 0x15, 0x18, 0x1E, 0x29, 0x33, 0x55, 0x65])

/-- Encoding what was decoded gives the word back, but for the ignored `y` of shr and shl, which assembles as 0
(R68, R69). -/
def Obligations.EncodeGivesTheWordBack : Prop :=
  ∀ (w : Word) (i : Instr), decodeWord w = .ok i →
    ((∃ x, i = .shr x) ∨ (∃ x, i = .shl x) → encode i = w &&& 0xFF0F) ∧
    ((¬∃ x, i = .shr x) ∧ (¬∃ x, i = .shl x) → encode i = w)

/-! ### The step -/

/-- A step performs the host's next event: the first of the schedule; when that is empty the first of the recurring plan,
which goes to the plan's end; with no plan either, some event, of which nothing is said. That the schedule stands in the
state in this form is the model's (notes/assumptions/1). -/
def Obligations.StepPerformsTheNextEvent : Prop :=
  ∀ s : State,
    (∀ (e : HostEvent) (rest : List HostEvent), s.env.schedule = e :: rest →
      step s = hostEvent e (s.withSchedule rest)) ∧
    (∀ (e : HostEvent) (ps : List PlannedEvent), s.env.schedule = [] → s.env.recurring = .given e :: ps →
      step s = hostEvent e (s.withRecurring (ps ++ [.given e]))) ∧
    (∀ ps : List PlannedEvent, s.env.schedule = [] → s.env.recurring = .tickAnyByte :: ps →
      ∃ r : Byte, step s = hostEvent (.tick r) (s.withRecurring (ps ++ [.tickAnyByte])).countDraw) ∧
    (s.env.schedule = [] → s.env.recurring = [] → ∃ e : HostEvent, step s = hostEvent e s.countDraw)

/-- When the next event is a `Tick(r)` and the bytes at PC decode to an instruction, the step is that instruction's
`exec`, in the state with PC past the word and the byte `r` handed over. -/
def Obligations.StepRunsTheDecodedInstruction : Prop :=
  ∀ (s : State) (i : Instr), s.fault = false → s.canFetch → decodeWord (s.wordAt s.pc.toNat) = .ok i →
    (∀ (r : Byte) (rest : List HostEvent), s.env.schedule = .tick r :: rest →
      step s = exec i ((s.withSchedule rest).withRnd r).advancePc) ∧
    (∀ (r : Byte) (ps : List PlannedEvent), s.env.schedule = [] → s.env.recurring = .given (.tick r) :: ps →
      step s = exec i ((s.withRecurring (ps ++ [.given (.tick r)])).withRnd r).advancePc) ∧
    (∀ ps : List PlannedEvent, s.env.schedule = [] → s.env.recurring = .tickAnyByte :: ps →
      ∃ r : Byte, step s = exec i ((s.withRecurring (ps ++ [.tickAnyByte])).countDraw.withRnd r).advancePc)

/-- A fetch below `0x200` raises cause 7, a fetch with `PC + 1 >= 4096` cause 3, and any other fetch none (10_state.md
R16; the first is the spec's decision D6, notes/assumptions/18). -/
def Obligations.FetchFaultsOutsideItsRange : Prop :=
  ∀ (s : State) (r : Byte), s.fault = false →
    (s.pc.toNat < 0x200 → ∃ t, hostEvent (.tick r) s = .next t ∧ Faulted .reservedFetch s t) ∧
    (s.pc.toNat + 1 ≥ 4096 → ∃ t, hostEvent (.tick r) s = .next t ∧ Faulted .fetchAddrRange s t) ∧
    (s.canFetch → fetch s = .ok (s.wordAt s.pc.toNat, s.advancePc))

/-- Every step answers a next state (60_exceptions.md R194: "Each `Tick` is a total function"; here a fault is a next
state too, notes/assumptions/3). -/
def Obligations.EveryStepAnswersNextState : Prop := ∀ s : State, ∃ t, step s = .next t

/-! ### Control flow (40_control_flow.md) -/

/-- R80, with the round trip of call and return (that SP counts the entries is the spec's decision D7,
notes/assumptions/16; the fault state is decision D3, notes/assumptions/3). -/
def Obligations.ReturnPopsIntoPc : Prop :=
  decodeWord 0x00EE = .ok .ret ∧
  (∀ s : State, s.sp.val = 0 → ∃ t, exec .ret s = .next t ∧ Faulted .stackUnderflow s t) ∧
  (∀ s : State, s.sp.val ≠ 0 → ∃ t, exec .ret s = .next t ∧ t.sp.val + 1 = s.sp.val ∧
    s.stack[s.sp.val - 1]? = some t.pc ∧ OnlyPiecesWritten [.sp, .pc] s t) ∧
  (∀ (s : State) (nnn : Addr12), s.sp.val < 16 → ∃ t u, exec (.call nnn) s = .next t ∧ exec .ret t = .next u ∧
    u.pc = s.pc ∧ u.sp = s.sp)

/-- R81. -/
def Obligations.JumpSetsPc : Prop :=
  ∀ (nnn : Addr12) (s : State), decodeWord (wordNNN 0x1 nnn) = .ok (.jump nnn) ∧
    ∃ t, exec (.jump nnn) s = .next t ∧ t.pc.toNat = nnn.toNat ∧ OnlyPc s t

/-- R82: the entry pushed is PC after fetch, the address of the instruction after the call (decisions D7 and D3 as in
return, notes/assumptions 16 and 3). -/
def Obligations.CallPushesAndJumps : Prop :=
  ∀ (nnn : Addr12) (s : State), decodeWord (wordNNN 0x2 nnn) = .ok (.call nnn) ∧
    (s.sp.val = 16 → ∃ t, exec (.call nnn) s = .next t ∧ Faulted .stackOverflow s t) ∧
    (s.sp.val < 16 → ∃ t, exec (.call nnn) s = .next t ∧ t.pc.toNat = nnn.toNat ∧ t.sp.val = s.sp.val + 1 ∧
      t.stack[s.sp.val]? = some s.pc ∧ (∀ j : Nat, j ≠ s.sp.val → t.stack[j]? = s.stack[j]?) ∧
      OnlyPiecesWritten [.stack, .sp, .pc] s t)

/-- R83 and R84: a taken skip passes over two bytes. -/
def Obligations.ImmediateSkips : Prop :=
  ∀ (x : Reg) (nn : Byte) (s : State),
    decodeWord (wordXNN 0x3 x nn) = .ok (.skipEqImm x nn) ∧ decodeWord (wordXNN 0x4 x nn) = .ok (.skipNeqImm x nn) ∧
    (∃ t, exec (.skipEqImm x nn) s = .next t ∧ t.pc = (if s.reg x = nn then s.pc + 2 else s.pc) ∧ OnlyPc s t) ∧
    (∃ t, exec (.skipNeqImm x nn) s = .next t ∧ t.pc = (if s.reg x ≠ nn then s.pc + 2 else s.pc) ∧ OnlyPc s t)

/-- R85 and R86: the fourth nibble must be 0, else the word is unrecognized (decision D17, notes/assumptions/8). -/
def Obligations.RegisterSkips : Prop :=
  ∀ (x y : Reg) (s : State),
    decodeWord (wordXYN 0x5 x y 0) = .ok (.skipEqReg x y) ∧ decodeWord (wordXYN 0x9 x y 0) = .ok (.skipNeqReg x y) ∧
    (∀ n : BitVec 4, n ≠ 0 → decodeWord (wordXYN 0x5 x y n) = .error (.unrecognized (wordXYN 0x5 x y n)) ∧
      decodeWord (wordXYN 0x9 x y n) = .error (.unrecognized (wordXYN 0x9 x y n))) ∧
    (∃ t, exec (.skipEqReg x y) s = .next t ∧ t.pc = (if s.reg x = s.reg y then s.pc + 2 else s.pc) ∧ OnlyPc s t) ∧
    (∃ t, exec (.skipNeqReg x y) s = .next t ∧ t.pc = (if s.reg x ≠ s.reg y then s.pc + 2 else s.pc) ∧ OnlyPc s t)

/-- R87: always V0; the sum on natural numbers, so no carry is lost. -/
def Obligations.JumpOffsetAddsV0 : Prop :=
  ∀ (nnn : Addr12) (s : State), decodeWord (wordNNN 0xB nnn) = .ok (.jumpOffset nnn) ∧
    ∃ t, exec (.jumpOffset nnn) s = .next t ∧ t.pc.toNat = (s.reg 0).toNat + nnn.toNat ∧ OnlyPc s t

/-! ### Arithmetic and logic (41_alu.md) -/

/-- R101. -/
def Obligations.SetImmAssigns : Prop :=
  ∀ (x : Reg) (nn : Byte) (s : State), decodeWord (wordXNN 0x6 x nn) = .ok (.setImm x nn) ∧
    ∃ t, exec (.setImm x nn) s = .next t ∧ t.reg x = nn ∧ OnlyRegsWritten [x] s t

/-- add-imm: the 8-bit immediate is the spec's decision D10 (conflict C1, notes/assumptions/10); no flag, so VF changes
only as the destination. -/
def Obligations.AddImmWraps : Prop :=
  ∀ (x : Reg) (nn : Byte) (s : State), decodeWord (wordXNN 0x7 x nn) = .ok (.addImm x nn) ∧
    ∃ t, exec (.addImm x nn) s = .next t ∧ (t.reg x).toNat = ((s.reg x).toNat + nn.toNat) % 256 ∧
      OnlyRegsWritten [x] s t

/-- R103. -/
def Obligations.SetRegCopies : Prop :=
  ∀ (x y : Reg) (s : State), decodeWord (wordXYN 0x8 x y 0x0) = .ok (.setReg x y) ∧
    ∃ t, exec (.setReg x y) s = .next t ∧ t.reg x = s.reg y ∧ OnlyRegsWritten [x] s t

/-- R104, R105, R106: bitwise, and no flag. -/
def Obligations.BitwiseOps : Prop :=
  ∀ (x y : Reg) (s : State),
    decodeWord (wordXYN 0x8 x y 0x1) = .ok (.orReg x y) ∧ decodeWord (wordXYN 0x8 x y 0x2) = .ok (.andReg x y) ∧
    decodeWord (wordXYN 0x8 x y 0x3) = .ok (.xorReg x y) ∧
    (∃ t, exec (.orReg x y) s = .next t ∧ (∀ k : Nat, (t.reg x).getLsbD k = ((s.reg x).getLsbD k || (s.reg y).getLsbD k)) ∧
      OnlyRegsWritten [x] s t) ∧
    (∃ t, exec (.andReg x y) s = .next t ∧ (∀ k : Nat, (t.reg x).getLsbD k = ((s.reg x).getLsbD k && (s.reg y).getLsbD k)) ∧
      OnlyRegsWritten [x] s t) ∧
    (∃ t, exec (.xorReg x y) s = .next t ∧ (∀ k : Nat, (t.reg x).getLsbD k = ((s.reg x).getLsbD k ^^ (s.reg y).getLsbD k)) ∧
      OnlyRegsWritten [x] s t)

/-- R107, with VF as an operand and as the destination: with `x = 15` VF ends as the flag (the order is the spec's decision
D9, notes/assumptions/9). -/
def Obligations.AddRegSumAndCarry : Prop :=
  ∀ (x y : Reg) (s : State), decodeWord (wordXYN 0x8 x y 0x4) = .ok (.addReg x y) ∧
    ∃ t, exec (.addReg x y) s = .next t ∧
      t.reg vf = (if (s.reg x).toNat + (s.reg y).toNat > 255 then 1 else 0) ∧
      (x ≠ vf → (t.reg x).toNat = ((s.reg x).toNat + (s.reg y).toNat) % 256) ∧ OnlyRegsWritten [x, vf] s t

/-- R108 and R110: the difference and the flag "no borrow", for `Vx - Vy` and `Vy - Vx` (with `x = 15` the flag is last,
decision D9, notes/assumptions/9). -/
def Obligations.SubtractionsAndBorrow : Prop :=
  ∀ (x y : Reg) (s : State),
    decodeWord (wordXYN 0x8 x y 0x5) = .ok (.subReg x y) ∧ decodeWord (wordXYN 0x8 x y 0x7) = .ok (.subnReg x y) ∧
    (∃ t, exec (.subReg x y) s = .next t ∧ t.reg vf = (if (s.reg x).toNat ≥ (s.reg y).toNat then 1 else 0) ∧
      (x ≠ vf → (t.reg x).toNat = ((s.reg x).toNat + 256 - (s.reg y).toNat) % 256) ∧ OnlyRegsWritten [x, vf] s t) ∧
    (∃ t, exec (.subnReg x y) s = .next t ∧ t.reg vf = (if (s.reg y).toNat ≥ (s.reg x).toNat then 1 else 0) ∧
      (x ≠ vf → (t.reg x).toNat = ((s.reg y).toNat + 256 - (s.reg x).toNat) % 256) ∧ OnlyRegsWritten [x, vf] s t)

/-- R109: every value of the ignored `y` gives the same instruction (with `x = 15` the flag is last, decision D9,
notes/assumptions/9). -/
def Obligations.ShrHalvesAndKeepsBit : Prop :=
  ∀ (x y : Reg) (s : State), decodeWord (wordXYN 0x8 x y 0x6) = .ok (.shr x) ∧
    ∃ t, exec (.shr x) s = .next t ∧ (t.reg vf).toNat = (s.reg x).toNat % 2 ∧
      (x ≠ vf → (t.reg x).toNat = (s.reg x).toNat / 2) ∧ OnlyRegsWritten [x, vf] s t

/-- shl: VF is the old value ANDed with `0xF0`, in place (the literal is kept by the spec's decision D28,
notes/assumptions/19). -/
def Obligations.ShlDoublesAndMasks : Prop :=
  ∀ (x y : Reg) (s : State), decodeWord (wordXYN 0x8 x y 0xE) = .ok (.shl x) ∧
    ∃ t, exec (.shl x) s = .next t ∧ t.reg vf = s.reg x &&& 0xF0 ∧ (t.reg vf).toNat = (s.reg x).toNat / 16 * 16 ∧
      (x ≠ vf → (t.reg x).toNat = 2 * (s.reg x).toNat % 256) ∧ OnlyRegsWritten [x, vf] s t

/-- random: the byte of the `Tick` ANDed with `nn`, for every byte (the free byte is the spec's decision D19,
notes/assumptions/2). -/
def Obligations.RandomMasksTheByte : Prop :=
  ∀ (x : Reg) (nn r : Byte) (s : State), decodeWord (wordXNN 0xC x nn) = .ok (.random x nn) ∧
    ∃ t, exec (.random x nn) (s.withRnd r) = .next t ∧ t.reg x = r &&& nn ∧ OnlyRegsWritten [x] (s.withRnd r) t

/-! ### Index and memory (42_index_memory.md) -/

/-- R120. -/
def Obligations.SetIndexAssigns : Prop :=
  ∀ (nnn : Addr12) (s : State), decodeWord (wordNNN 0xA nnn) = .ok (.setIndex nnn) ∧
    ∃ t, exec (.setIndex nnn) s = .next t ∧ t.i.toNat = nnn.toNat ∧ OnlyPiecesWritten [.index] s t

/-- add-to-index: wrap at 65536 is the spec's decision D12 (notes/assumptions/12); VF is not written. -/
def Obligations.AddToIndexWraps : Prop :=
  ∀ (x : Reg) (s : State), decodeWord (wordXNN 0xF x 0x1E) = .ok (.addToIndex x) ∧
    ∃ t, exec (.addToIndex x) s = .next t ∧ t.i.toNat = (s.i.toNat + (s.reg x).toNat) % 65536 ∧
      OnlyPiecesWritten [.index] s t

/-- font-char-addr: no mask for values of 16 and more is the spec's decision D14 (notes/assumptions/14). -/
def Obligations.FontCharAddrIsFiveTimes : Prop :=
  ∀ (x : Reg) (s : State), decodeWord (wordXNN 0xF x 0x29) = .ok (.fontCharAddr x) ∧
    ∃ t, exec (.fontCharAddr x) s = .next t ∧ t.i.toNat = (s.reg x).toNat * 5 ∧ OnlyPiecesWritten [.index] s t

/-- R123: hundreds, tens, ones at `I`, `I + 1`, `I + 2`; cause 4 when `I >= 4094` (the exact sum is the spec's decision D13,
the fault state D3, notes/assumptions 13 and 3). -/
def Obligations.BcdStoreWritesDigits : Prop :=
  ∀ (x : Reg) (s : State), decodeWord (wordXNN 0xF x 0x33) = .ok (.bcdStore x) ∧
    (s.i.toNat ≥ 4094 → ∃ t, exec (.bcdStore x) s = .next t ∧ Faulted .dataAddrRange s t) ∧
    (s.i.toNat < 4094 → ∃ t, exec (.bcdStore x) s = .next t ∧
      (t.readMem s.base).toNat = (s.reg x).toNat / 100 ∧
      (t.readMem (s.base + 1)).toNat = (s.reg x).toNat / 10 % 10 ∧
      (t.readMem (s.base + 2)).toNat = (s.reg x).toNat % 10 ∧ OnlyBytesWritten s.base 3 s t)

/-- reg-dump: `V[k]` at `I + k` for `k` in `0..x`; I unchanged is the spec's decision D15 (notes/assumptions/15). -/
def Obligations.RegDumpStoresRegisters : Prop :=
  ∀ (x : Reg) (s : State), decodeWord (wordXNN 0xF x 0x55) = .ok (.regDump x) ∧
    (s.i.toNat + x.val ≥ 4096 → ∃ t, exec (.regDump x) s = .next t ∧ Faulted .dataAddrRange s t) ∧
    (s.i.toNat + x.val < 4096 → ∃ t, exec (.regDump x) s = .next t ∧
      (∀ k : Reg, k.val ≤ x.val → t.readMem (s.base + k.val) = s.reg k) ∧ OnlyBytesWritten s.base (x.val + 1) s t)

/-- reg-load: the byte at `I + k` into `V[k]` for `k` in `0..x`; I unchanged is the spec's decision D15
(notes/assumptions/15). -/
def Obligations.RegLoadFillsRegisters : Prop :=
  ∀ (x : Reg) (s : State), decodeWord (wordXNN 0xF x 0x65) = .ok (.regLoad x) ∧
    (s.i.toNat + x.val ≥ 4096 → ∃ t, exec (.regLoad x) s = .next t ∧ Faulted .dataAddrRange s t) ∧
    (s.i.toNat + x.val < 4096 → ∃ t, exec (.regLoad x) s = .next t ∧
      (∀ k : Reg, k.val ≤ x.val → t.reg k = s.readMem (s.base + k.val)) ∧ (∀ k : Reg, x.val < k.val → t.reg k = s.reg k) ∧
      OnlyPieces [] s t ∧ SameMemory s t)

/-- What a dump stored a load brings back: into any state with the memory and the I the dump left, registers `V0..Vx`
as they were dumped, the others untouched. -/
def Obligations.DumpThenLoadRestores : Prop :=
  ∀ (x : Reg) (s t u : State), exec (.regDump x) s = .next t → t.fault = false → u.mem = t.mem →
    u.env.font = t.env.font → u.i = t.i → ∃ v, exec (.regLoad x) u = .next v ∧ (∀ k : Reg, k.val ≤ x.val → v.reg k = s.reg k) ∧
      (∀ k : Reg, x.val < k.val → v.reg k = u.reg k)

/-- A store is seen by the very next fetch, with no barrier (20_memory.md R49). -/
def Obligations.StoreSeenByNextFetch : Prop :=
  ∀ (x k k' : Reg) (s t : State), exec (.regDump x) s = .next t → t.fault = false → k'.val = k.val + 1 → k'.val ≤ x.val →
    s.canFetch → s.pc.toNat = s.base + k.val →
    fetch t = .ok (wordOfBytes (s.reg k) (s.reg k'), t.advancePc)

/-! ### Display (43_display.md) -/

/-- R140. -/
def Obligations.ClearScreenClearsEveryCell : Prop :=
  decodeWord 0x00E0 = .ok .clearScreen ∧
  ∀ s : State, ∃ t, exec .clearScreen s = .next t ∧ (∀ k : Fin 2048, t.cell k = false) ∧
    OnlyPiecesWritten [.display] s t

/-- draw: the cells the sprite covers become true, no cell becomes false, VF is 1 iff a covered cell was true before.
`V[x]`, `V[y]` are read before VF is written, and `n = 0` writes `VF = 0` (the spec's decisions D9 and D37,
notes/assumptions 9 and 20). -/
def Obligations.DrawSetsCellsAndCollision : Prop :=
  ∀ (x y : Reg) (n : BitVec 4) (s : State), decodeWord (wordXYN 0xD x y n) = .ok (.draw x y n.toNat) ∧
    (n.toNat ≥ 1 ∧ s.i.toNat + n.toNat - 1 ≥ 4096 →
      ∃ t, exec (.draw x y n.toNat) s = .next t ∧ Faulted .dataAddrRange s t) ∧
    (n.toNat = 0 ∨ s.i.toNat + n.toNat - 1 < 4096 →
      ∃ t, exec (.draw x y n.toNat) s = .next t ∧
        (∀ k : Fin 2048, t.cell k = true ↔ s.cell k = true ∨ SpriteCovers s x y n.toNat k) ∧
        ((∃ k : Fin 2048, SpriteCovers s x y n.toNat k ∧ s.cell k = true) → t.reg vf = 1) ∧
        ((¬∃ k : Fin 2048, SpriteCovers s x y n.toNat k ∧ s.cell k = true) → t.reg vf = 0) ∧
        OnlyPieces [.display] s t ∧ OnlyRegs [vf] s t ∧ SameMemory s t)

/-- The collision law: drawing the same sprite at the same place again changes no cell, and gives `VF = 1` iff the sprite
has a set bit. -/
def Obligations.DrawingTwiceCollides : Prop :=
  ∀ (x y : Reg) (n : Nat) (s t : State), n < 16 → exec (.draw x y n) s = .next t → t.fault = false →
    t.reg x = s.reg x → t.reg y = s.reg y →
    ∃ u, exec (.draw x y n) t = .next u ∧ (∀ k : Fin 2048, u.cell k = t.cell k) ∧
      ((∃ k, SpriteCovers s x y n k) → u.reg vf = 1) ∧ ((¬∃ k, SpriteCovers s x y n k) → u.reg vf = 0)

/-- A lit cell stays lit until clear-screen or `Reset` (R141(a)), whatever else the host does, faults apart. -/
def Obligations.LitCellsStayLit : Prop :=
  ∀ (e : HostEvent) (s t : State) (k : Fin 2048), hostEvent e s = .next t → t.fault = false → s.cell k = true →
    t.cell k = false → e = .reset ∨ ∃ r, e = .tick r ∧ decodeWord (s.wordAt s.pc.toNat) = .ok .clearScreen

/-! ### Keys and timers (44_keys_timers.md) -/

/-- The two key skips; cause 6 for `V[x] >= 16` is the spec's decision D5 (notes/assumptions/17). -/
def Obligations.KeySkips : Prop :=
  ∀ (x : Reg) (s : State),
    decodeWord (wordXNN 0xE x 0x9E) = .ok (.skipKeyPressed x) ∧
    decodeWord (wordXNN 0xE x 0xA1) = .ok (.skipKeyNotPressed x) ∧
    ((s.reg x).toNat ≥ 16 →
      (∃ t, exec (.skipKeyPressed x) s = .next t ∧ Faulted .keyIndexRange s t) ∧
      (∃ t, exec (.skipKeyNotPressed x) s = .next t ∧ Faulted .keyIndexRange s t)) ∧
    (∀ k : Fin 16, (s.reg x).toNat = k.val →
      (∃ t, exec (.skipKeyPressed x) s = .next t ∧ t.pc = (if s.keyFlag k = true then s.pc + 2 else s.pc) ∧ OnlyPc s t) ∧
      (∃ t, exec (.skipKeyNotPressed x) s = .next t ∧ t.pc = (if s.keyFlag k = false then s.pc + 2 else s.pc) ∧ OnlyPc s t))

/-- wait-key: back to itself while the key numbered `V[x]` is up, a no-op when it is down; it writes no register (the
spec's decision D11, notes/assumptions/11; the range fault is D5, notes/assumptions/17). -/
def Obligations.WaitKeyTestsOneKey : Prop :=
  ∀ (x : Reg) (s : State), decodeWord (wordXNN 0xF x 0x0A) = .ok (.waitKey x) ∧
    ((s.reg x).toNat ≥ 16 → ∃ t, exec (.waitKey x) s = .next t ∧ Faulted .keyIndexRange s t) ∧
    (∀ k : Fin 16, (s.reg x).toNat = k.val →
      ∃ t, exec (.waitKey x) s = .next t ∧ t.pc = (if s.keyFlag k = true then s.pc else s.pc - 2) ∧ OnlyPc s t)

/-- The waiting: any number of ticks with the key up leaves the core as it is and emits nothing; once the host sets the
key, the next tick goes on (decision D11, notes/assumptions/11). -/
def Obligations.WaitKeyWaitsForItsKey : Prop :=
  ∀ (x : Reg) (k : Fin 16) (s : State) (rs : List Byte) (r : Byte), s.fault = false → s.canFetch →
    decodeWord (s.wordAt s.pc.toNat) = .ok (.waitKey x) → (s.reg x).toNat = k.val → s.keyFlag k = false →
    (∃ t, runEvents (rs.map HostEvent.tick) s = .next t ∧ SameCore s t ∧ t.env.outbox = s.env.outbox) ∧
    (∃ u, runEvents (rs.map HostEvent.tick ++ [.setKey k true, .tick r]) s = .next u ∧ u.pc = s.pc + 2 ∧
      u.fault = false ∧ (∀ j, u.reg j = s.reg j) ∧ u.env.outbox = s.env.outbox)

/-- R153, R154, R155: moves between `V[x]` and a timer. -/
def Obligations.TimerMoves : Prop :=
  ∀ (x : Reg) (s : State),
    decodeWord (wordXNN 0xF x 0x07) = .ok (.getDelay x) ∧ decodeWord (wordXNN 0xF x 0x15) = .ok (.setDelay x) ∧
    decodeWord (wordXNN 0xF x 0x18) = .ok (.setSound x) ∧
    (∃ t, exec (.getDelay x) s = .next t ∧ t.reg x = s.dt ∧ OnlyRegsWritten [x] s t) ∧
    (∃ t, exec (.setDelay x) s = .next t ∧ t.dt = s.reg x ∧ OnlyPiecesWritten [.delay] s t) ∧
    (∃ t, exec (.setSound x) s = .next t ∧ t.st = s.reg x ∧ OnlyPiecesWritten [.sound] s t)

/-! ### The unrecognized instruction (45_unrecognized.md) -/

/-- R170 and R172: a word that matches no row of R64 leaves the core as it is, tick after tick, with one diagnostic of
that word a tick (which words these are is decision D17, the word as the diagnostic's datum D20, notes/assumptions 8
and 5). -/
def Obligations.UnrecognizedWordStalls : Prop :=
  ∀ (s : State) (w : Word) (rs : List Byte), s.fault = false → s.canFetch → w = s.wordAt s.pc.toNat →
    (∀ row ∈ opcodeTable, row.matches w = false) →
    ∃ t, runEvents (rs.map HostEvent.tick) s = .next t ∧ SameCore s t ∧
      t.env.outbox = List.replicate rs.length (.diag w) ++ s.env.outbox

/-! ### Faults, reset and the host's events (60_exceptions.md, 70_reset_and_hazards.md) -/

/-- Which instruction raises which fault, and when (60_exceptions.md R181, R182; the latch and causes 4 for exact sums, 6
are the spec's decisions D3, D13, D5, notes/assumptions 21, 13, 17). -/
def Obligations.FaultsAndTheirCauses : Prop :=
  ∀ (i : Instr) (s t : State), s.fault = false → exec i s = .next t → t.fault = true →
    (i = .ret ∧ s.sp.val = 0 ∧ t.cause = some .stackUnderflow) ∨
    ((∃ nnn, i = .call nnn) ∧ s.sp.val = 16 ∧ t.cause = some .stackOverflow) ∨
    ((∃ x y n, i = .draw x y n ∧ n ≥ 1 ∧ s.i.toNat + n > 4096) ∧ t.cause = some .dataAddrRange) ∨
    ((∃ x, i = .bcdStore x ∧ s.i.toNat + 3 > 4096) ∧ t.cause = some .dataAddrRange) ∨
    ((∃ x : Reg, (i = .regDump x ∨ i = .regLoad x) ∧ s.i.toNat + x.val + 1 > 4096) ∧ t.cause = some .dataAddrRange) ∨
    ((∃ x, (i = .skipKeyPressed x ∨ i = .skipKeyNotPressed x ∨ i = .waitKey x) ∧ (s.reg x).toNat ≥ 16) ∧
      t.cause = some .keyIndexRange)

/-- In the fault state every event but `Reset` changes nothing of the core and emits no diagnostic, and no number of
events leads out of it without a `Reset` (60_exceptions.md R183(b), R184; the latch is the spec's decision D3,
notes/assumptions 3 and 21). -/
def Obligations.FaultStateIgnoresAllButReset : Prop :=
  ∀ (s : State) (es : List HostEvent), s.fault = true → .reset ∉ es →
    ∃ t, runEvents es s = .next t ∧ SameCore s t ∧ ∀ w, .diag w ∈ t.env.outbox → .diag w ∈ s.env.outbox

/-- R210: `Reset` succeeds in every state, the fault state included, and gives the state of construction, with the font the
machine has as its parameter. -/
def Obligations.ResetFromAnyState : Prop :=
  ∀ s : State, ∃ t, hostEvent .reset s = .next t ∧ SameCore State.reset t ∧ t.env.font = s.env.font

/-- The values after reset (10_state.md R24; FAULT and CAUSE are the spec's decision D24, the font its parameter,
notes/assumptions 21 and 6), memory read byte by byte; what stands outside the core stays (notes/assumptions/26). -/
def Obligations.ResetStateValues : Prop :=
  ∀ s t : State, hostEvent .reset s = .next t →
    (∀ a : Nat, a < 80 → some (t.readMem a) = s.env.font[a]?) ∧ (∀ a : Nat, 80 ≤ a → t.readMem a = 0) ∧
    (∀ j : Reg, t.reg j = 0) ∧ t.i = 0 ∧ t.pc = 0x200 ∧ (∀ j : Fin 16, t.stack[j] = 0) ∧ t.sp.val = 0 ∧ t.dt = 0 ∧
    t.st = 0 ∧ (∀ k : Fin 16, t.keyFlag k = false) ∧ (∀ k : Fin 2048, t.cell k = false) ∧ t.fault = false ∧
    t.cause = none ∧ t.causeCode = 0 ∧ t.env = s.env

/-- `Load`: the bytes from `0x200` up and nothing else; cause 5 for more than 3584 (60_exceptions.md R192; that a running
core may be loaded is the spec's decision D23, notes/assumptions/22). -/
def Obligations.LoadPlacesTheProgram : Prop :=
  ∀ (s : State) (bytes : List Byte), s.fault = false →
    (bytes.length > 3584 → ∃ t, hostEvent (.load bytes) s = .next t ∧ Faulted .loadTooLarge s t) ∧
    (bytes.length ≤ 3584 → ∃ t, hostEvent (.load bytes) s = .next t ∧
      (∀ k : Nat, k < bytes.length → some (t.readMem (0x200 + k)) = bytes[k]?) ∧
      OnlyBytesWritten 0x200 bytes.length s t)

/-- The launch premises (70_reset_and_hazards.md R213): after `Reset` and one `Load`, from any state. -/
def Obligations.LaunchState : Prop :=
  ∀ (s : State) (bytes : List Byte), bytes.length ≤ 3584 →
    ∃ t, runEvents [.reset, .load bytes] s = .next t ∧ t.fault = false ∧ t.pc = 0x200 ∧ t.sp.val = 0 ∧
      (∀ j : Reg, t.reg j = 0) ∧ t.i = 0 ∧ t.dt = 0 ∧ t.st = 0 ∧ (∀ k : Fin 16, t.keyFlag k = false) ∧
      (∀ k : Fin 2048, t.cell k = false) ∧
      (∀ k : Nat, k < bytes.length → some (t.readMem (0x200 + k)) = bytes[k]?) ∧
      (∀ a : Nat, a < 80 → some (t.readMem a) = s.env.font[a]?) ∧
      (∀ a : Nat, 80 ≤ a → a < 0x200 → t.readMem a = 0) ∧ (∀ a : Nat, 0x200 + bytes.length ≤ a → t.readMem a = 0)

/-- R195: each timer above 0 counts down by 1 and rests at 0; `n` events take `v` to `v - n`, and nothing else changes.
Both are 8 bits and 0 after reset. -/
def Obligations.TimersCountDown : Prop :=
  State.reset.dt = 0 ∧ State.reset.st = 0 ∧
  ∀ (s : State) (n : Nat), s.fault = false →
    ∃ t, runEvents (List.replicate n .tickTimers) s = .next t ∧ t.dt.toNat = s.dt.toNat - n ∧
      t.st.toNat = s.st.toNat - n ∧ OnlyPiecesWritten [.delay, .sound] s t

/-- `ReadDisplay` hands the host the grid with its width and height and changes nothing of the core; in the fault state
the cells are unspecified (60_exceptions.md R196, R183(a); decision D27; notes/assumptions 4 and 5). -/
def Obligations.ReadDisplayShowsTheGrid : Prop :=
  ∀ s : State, ∃ t cells, hostEvent .readDisplay s = .next t ∧ SameCore s t ∧
    t.env.outbox = .display 64 32 cells :: s.env.outbox ∧ (s.fault = false → ∀ k, cellOf cells k = s.cell k)

/-- A key flag is what the host last set: no event but `SetKey` of that key and `Reset` changes it, faults apart
(60_exceptions.md R193; the 4-bit index is the spec's decision D26, notes/assumptions/22). -/
def Obligations.KeyFlagsFollowTheHost : Prop :=
  (∀ (s : State) (k : Fin 16) (b : Bool), s.fault = false → ∃ t, hostEvent (.setKey k b) s = .next t ∧
    t.keyFlag k = b ∧ (∀ j, j ≠ k → t.keyFlag j = s.keyFlag j) ∧ OnlyPiecesWritten [.keys] s t) ∧
  (∀ (e : HostEvent) (s t : State) (k : Fin 16), hostEvent e s = .next t → t.fault = false → e ≠ .reset →
    (∀ b, e ≠ .setKey k b) → t.keyFlag k = s.keyFlag k)

/-! ### Rules of the whole machine -/

/-- The invariant is kept by every step, from every state that meets it: canonical memory (the model's own form,
notes/assumptions/24), the latch (decision D3, notes/assumptions/21), the range of PC and of the live stack entries
(10_state.md R18, which the spec derives). -/
def Obligations.StepKeepsTheInvariant : Prop := ∀ s t : State, Inv s → step s = .next t → Inv t

/-- The invariant holds after reset. -/
def Obligations.ResetMeetsTheInvariant : Prop := Inv State.reset

/-- Which instruction may write which piece of state (10_state.md sections 1 to 8), when no fault is raised. The general
registers: those R11 lists. PC beside the fetch advance: those R17 lists. The stack entries: call alone, since a popped
entry stays (the spec's reading D7, notes/assumptions/16). SP: call and return. DT: set-delay. ST: set-sound. I: its three
writers. The framebuffer: clear-screen and draw. Memory: bcd-store and reg-dump. The key flags, the latch and what stands
outside the core: none. -/
def Obligations.EachPieceHasItsWriters : Prop :=
  ∀ (i : Instr) (s t : State), exec i s = .next t → t.fault = false →
    (∀ j : Reg, t.reg j ≠ s.reg j →
      (∃ nn, i = .setImm j nn ∨ i = .addImm j nn ∨ i = .random j nn) ∨
      (∃ y, i = .setReg j y ∨ i = .orReg j y ∨ i = .andReg j y ∨ i = .xorReg j y) ∨
      (∃ x y, (i = .addReg x y ∨ i = .subReg x y ∨ i = .subnReg x y) ∧ (j = x ∨ j = vf)) ∨
      (∃ x, (i = .shr x ∨ i = .shl x) ∧ (j = x ∨ j = vf)) ∨ ((∃ x y n, i = .draw x y n) ∧ j = vf) ∨
      i = .getDelay j ∨ ∃ x : Reg, i = .regLoad x ∧ j.val ≤ x.val) ∧
    (t.pc ≠ s.pc → (∃ nnn, i = .jump nnn ∨ i = .call nnn ∨ i = .jumpOffset nnn) ∨ i = .ret ∨
      (∃ x nn, i = .skipEqImm x nn ∨ i = .skipNeqImm x nn) ∨ (∃ x y, i = .skipEqReg x y ∨ i = .skipNeqReg x y) ∨
      ∃ x, i = .skipKeyPressed x ∨ i = .skipKeyNotPressed x ∨ i = .waitKey x) ∧
    (t.stack ≠ s.stack → ∃ nnn, i = .call nnn) ∧ (t.sp ≠ s.sp → i = .ret ∨ ∃ nnn, i = .call nnn) ∧
    (t.dt ≠ s.dt → ∃ x, i = .setDelay x) ∧ (t.st ≠ s.st → ∃ x, i = .setSound x) ∧
    (t.i ≠ s.i → (∃ nnn, i = .setIndex nnn) ∨ (∃ x, i = .addToIndex x) ∨ ∃ x, i = .fontCharAddr x) ∧
    (t.fb ≠ s.fb → i = .clearScreen ∨ ∃ x y n, i = .draw x y n) ∧
    ((∃ a, t.readMem a ≠ s.readMem a) → (∃ x, i = .bcdStore x) ∨ ∃ x, i = .regDump x) ∧
    t.key = s.key ∧ t.env = s.env ∧ t.fault = s.fault ∧ t.cause = s.cause

/-- R12: VF changes only under the six flag writers or as the register an instruction names as its destination, and the
flag writers leave in it the value of their flag rule, with `x = 15` too (the order is decision D9, shl's literal D28,
notes/assumptions 9 and 19); draw, with the at most 15 rows an encoding holds, 1 iff a cell its sprite covers was true. -/
def Obligations.VfAndItsWriters : Prop :=
  ∀ (i : Instr) (s t : State), exec i s = .next t → t.fault = false →
    (∀ x y, i = .addReg x y → t.reg vf = if (s.reg x).toNat + (s.reg y).toNat > 255 then 1 else 0) ∧
    (∀ x y, i = .subReg x y → t.reg vf = if (s.reg x).toNat ≥ (s.reg y).toNat then 1 else 0) ∧
    (∀ x y, i = .subnReg x y → t.reg vf = if (s.reg y).toNat ≥ (s.reg x).toNat then 1 else 0) ∧
    (∀ x, i = .shr x → t.reg vf = s.reg x &&& 1) ∧ (∀ x, i = .shl x → t.reg vf = s.reg x &&& 0xF0) ∧
    (∀ x y n, i = .draw x y n → t.reg vf = 0 ∨ t.reg vf = 1) ∧
    (∀ x y n, i = .draw x y n → n < 16 →
      (t.reg vf = 1 ↔ ∃ k : Fin 2048, SpriteCovers s x y n k ∧ s.cell k = true)) ∧
    (t.reg vf ≠ s.reg vf → (∃ x y, i = .addReg x y ∨ i = .subReg x y ∨ i = .subnReg x y) ∨
      (∃ x, i = .shr x ∨ i = .shl x) ∨ (∃ x y n, i = .draw x y n) ∨
      (∃ nn, i = .setImm vf nn ∨ i = .addImm vf nn ∨ i = .random vf nn) ∨
      (∃ y, i = .setReg vf y ∨ i = .orReg vf y ∨ i = .andReg vf y ∨ i = .xorReg vf y) ∨ i = .getDelay vf ∨ i = .regLoad vf)

/-- The random byte of a `Tick` matters to random alone: two ticks with different bytes end in the same core and the same
outputs when the word at PC is not a random instruction (60_exceptions.md R198, decision D19, notes/assumptions/2). For two
ticks that end in the fault state, whose core the spec leaves unspecified (R183(a)), that the cores agree is this model's
choice of one free value per fault entry (notes/assumptions/3). -/
def Obligations.RandomByteMattersToRandomOnly : Prop :=
  ∀ (s : State) (r r' : Byte), (∀ x nn, decodeWord (s.wordAt s.pc.toNat) ≠ .ok (.random x nn)) →
    ∃ t t', hostEvent (.tick r) s = .next t ∧ hostEvent (.tick r') s = .next t' ∧ SameCore t t' ∧
      t.env.outbox = t'.env.outbox

/-- A jump to itself, the usual end of a run: every later tick leaves the core as it is and emits nothing, and the run
ends well there (70_reset_and_hazards.md R222, decision D21, notes/assumptions/23). -/
def Obligations.JumpToSelfStays : Prop :=
  ∀ (s : State) (rs : List Byte), jumpsToSelf s →
    ∃ t, runEvents (rs.map HostEvent.tick) s = .next t ∧ SameCore s t ∧ t.env.outbox = s.env.outbox ∧
      SafeRun jumpsToSelf (rs.map HostEvent.tick) s

/-! ### Schedules without end (60_exceptions.md R191) -/

/-- A state that plans a finite beginning and then given events for ever: its steps are the events of that infinite
schedule, one a step, with the same core and the same outputs after any number of them (R191; that the plan stands in the
state is notes/assumptions/1). -/
def Obligations.StepsFollowTheInfiniteSchedule : Prop :=
  ∀ (s : State) (beginning : List HostEvent) (e : HostEvent) (es : List HostEvent) (n : Nat),
    s.env.schedule = beginning → s.env.recurring = (e :: es).map PlannedEvent.given →
    ∃ t u, runSteps n s = .next t ∧ runSchedule (unrolled beginning e es) n s = .next u ∧ SameCore t u ∧
      t.env.outbox = u.env.outbox

/-- Any infinite sequence of events is a legal schedule, and the core's behaviour is a function of the sequence alone (R191):
after any number of its events, from two states with the same core and font, a next state, the latch the same in both, and
the same core unless the latch is set. -/
def Obligations.BehaviourFollowsTheScheduleAlone : Prop :=
  ∀ (schedule : Nat → HostEvent) (n : Nat) (s s' : State), SameCore s s' → s'.env.font = s.env.font →
    ∃ t t', runSchedule schedule n s = .next t ∧ runSchedule schedule n s' = .next t' ∧ t'.fault = t.fault ∧
      t'.cause = t.cause ∧ (t.fault = false → SameCore t t')

/-- A wait-key under an infinite schedule without `Reset` and `Load`: it goes on for ever if the host never presses its key,
and it ends if the host presses the key and never releases it afterwards, and ticks keep occurring (R191, R223: "assumptions
about the host, not facts of the core"; decision D11, notes/assumptions/11). -/
def Obligations.WaitKeyEndsByTheHost : Prop :=
  ∀ (schedule : Nat → HostEvent) (x : Reg) (k : Fin 16) (s : State), s.fault = false → s.canFetch →
    decodeWord (s.wordAt s.pc.toNat) = .ok (.waitKey x) → (s.reg x).toNat = k.val → s.keyFlag k = false →
    (∀ n, schedule n ≠ .reset ∧ ∀ bytes, schedule n ≠ .load bytes) →
    ((∀ n, schedule n ≠ .setKey k true) →
      ∀ n, ∃ t, runSchedule schedule n s = .next t ∧ t.pc = s.pc ∧ t.fault = false) ∧
    (∀ m, schedule m = .setKey k true → (∀ n, m < n → schedule n ≠ .setKey k false) →
      (∀ n, ∃ n' r, n ≤ n' ∧ schedule n' = .tick r) →
      ∃ n t, runSchedule schedule n s = .next t ∧ t.pc = s.pc + 2 ∧ t.fault = false)
end

