-- ==== Sys2Proof/Laws/Decode.lean ====
section
/-! SUPPORT. The fields of a word (30_encoding.md R61, R62) as numbers: what each layout puts into a word, the field
extractions read back, and a word is its four nibbles. -/

namespace Sys2Proof

/-! ### Words as numbers -/

theorem toNat_concat {m n : Nat} (a : BitVec m) (b : BitVec n) : (a ++ b).toNat = a.toNat * 2 ^ n + b.toNat := by
  rw [BitVec.toNat_append, ← Nat.shiftLeft_add_eq_or_of_lt b.isLt, Nat.shiftLeft_eq]

theorem toNat_wordNNN (op : BitVec 4) (nnn : Addr12) : (wordNNN op nnn).toNat = op.toNat * 4096 + nnn.toNat :=
  toNat_concat op nnn

theorem toNat_wordXNN (op : BitVec 4) (x : Reg) (nn : Byte) :
    (wordXNN op x nn).toNat = op.toNat * 4096 + x.val * 256 + nn.toNat := by
  have h : (wordXNN op x nn).toNat = (op ++ (BitVec.ofFin x : BitVec 4)).toNat * 2 ^ 8 + nn.toNat := toNat_concat _ _
  have hx : (BitVec.ofFin x : BitVec 4).toNat = x.val := rfl
  rw [h, toNat_concat, hx]
  omega

theorem toNat_wordXYN (op : BitVec 4) (x y : Reg) (n : BitVec 4) :
    (wordXYN op x y n).toNat = op.toNat * 4096 + x.val * 256 + y.val * 16 + n.toNat := by
  have h : (wordXYN op x y n).toNat =
      (op ++ (BitVec.ofFin x : BitVec 4) ++ (BitVec.ofFin y : BitVec 4)).toNat * 2 ^ 4 + n.toNat := toNat_concat _ _
  have h2 : (op ++ (BitVec.ofFin x : BitVec 4) ++ (BitVec.ofFin y : BitVec 4)).toNat =
      (op ++ (BitVec.ofFin x : BitVec 4)).toNat * 2 ^ 4 + (BitVec.ofFin y : BitVec 4).toNat := toNat_concat _ _
  have hx : (BitVec.ofFin x : BitVec 4).toNat = x.val := rfl
  have hy : (BitVec.ofFin y : BitVec 4).toNat = y.val := rfl
  rw [h, h2, toNat_concat, hx, hy]
  omega

theorem toNat_fieldOp (w : Word) : (fieldOp w).toNat = w.toNat / 4096 := by
  simp [fieldOp, BitVec.extractLsb'_toNat, Nat.shiftRight_eq_div_pow]
  omega

theorem val_fieldX (w : Word) : (fieldX w).val = w.toNat / 256 % 16 := by
  simp [fieldX, Nat.shiftRight_eq_div_pow]

theorem val_fieldY (w : Word) : (fieldY w).val = w.toNat / 16 % 16 := by
  simp [fieldY, Nat.shiftRight_eq_div_pow]

theorem toNat_fieldN (w : Word) : (fieldN w).toNat = w.toNat % 16 := by
  simp [fieldN, BitVec.extractLsb'_toNat]

theorem toNat_fieldNN (w : Word) : (fieldNN w).toNat = w.toNat % 256 := by
  simp [fieldNN, BitVec.extractLsb'_toNat]

theorem toNat_fieldNNN (w : Word) : (fieldNNN w).toNat = w.toNat % 4096 := by
  simp [fieldNNN, BitVec.extractLsb'_toNat]

theorem toNat_wordOfBytes (b0 b1 : Byte) : (wordOfBytes b0 b1).toNat = b0.toNat * 256 + b1.toNat :=
  toNat_concat b0 b1

/-- The bytes of a word in memory order make the word. -/
@[simp] theorem wordOfBytes_bytesOfWord (w : Word) : wordOfBytes (bytesOfWord w).1 (bytesOfWord w).2 = w := by
  apply BitVec.eq_of_toNat_eq
  rw [toNat_wordOfBytes]
  simp [bytesOfWord, BitVec.extractLsb'_toNat, Nat.shiftRight_eq_div_pow]
  omega

/-! ### Fields of the layouts -/

@[simp] theorem fieldOp_wordNNN (op : BitVec 4) (nnn : Addr12) : fieldOp (wordNNN op nnn) = op :=
  BitVec.eq_of_toNat_eq (by rw [toNat_fieldOp, toNat_wordNNN]; omega)

@[simp] theorem fieldNNN_wordNNN (op : BitVec 4) (nnn : Addr12) : fieldNNN (wordNNN op nnn) = nnn :=
  BitVec.eq_of_toNat_eq (by rw [toNat_fieldNNN, toNat_wordNNN]; omega)

@[simp] theorem fieldOp_wordXNN (op : BitVec 4) (x : Reg) (nn : Byte) : fieldOp (wordXNN op x nn) = op :=
  BitVec.eq_of_toNat_eq (by rw [toNat_fieldOp, toNat_wordXNN]; omega)

@[simp] theorem fieldX_wordXNN (op : BitVec 4) (x : Reg) (nn : Byte) : fieldX (wordXNN op x nn) = x :=
  Fin.ext (by rw [val_fieldX, toNat_wordXNN]; omega)

@[simp] theorem fieldNN_wordXNN (op : BitVec 4) (x : Reg) (nn : Byte) : fieldNN (wordXNN op x nn) = nn :=
  BitVec.eq_of_toNat_eq (by rw [toNat_fieldNN, toNat_wordXNN]; omega)

@[simp] theorem fieldOp_wordXYN (op : BitVec 4) (x y : Reg) (n : BitVec 4) : fieldOp (wordXYN op x y n) = op :=
  BitVec.eq_of_toNat_eq (by rw [toNat_fieldOp, toNat_wordXYN]; omega)

@[simp] theorem fieldX_wordXYN (op : BitVec 4) (x y : Reg) (n : BitVec 4) : fieldX (wordXYN op x y n) = x :=
  Fin.ext (by rw [val_fieldX, toNat_wordXYN]; omega)

@[simp] theorem fieldY_wordXYN (op : BitVec 4) (x y : Reg) (n : BitVec 4) : fieldY (wordXYN op x y n) = y :=
  Fin.ext (by rw [val_fieldY, toNat_wordXYN]; omega)

@[simp] theorem fieldN_wordXYN (op : BitVec 4) (x y : Reg) (n : BitVec 4) : fieldN (wordXYN op x y n) = n :=
  BitVec.eq_of_toNat_eq (by rw [toNat_fieldN, toNat_wordXYN]; omega)

/-- A word is its four nibbles. -/
theorem wordXYN_fields (w : Word) : wordXYN (fieldOp w) (fieldX w) (fieldY w) (fieldN w) = w := by
  apply BitVec.eq_of_toNat_eq
  rw [toNat_wordXYN, toNat_fieldOp, val_fieldX, val_fieldY, toNat_fieldN]
  omega

/-- A word is its first two nibbles and its low byte. -/
theorem wordXNN_fields (w : Word) : wordXNN (fieldOp w) (fieldX w) (fieldNN w) = w := by
  apply BitVec.eq_of_toNat_eq
  rw [toNat_wordXNN, toNat_fieldOp, val_fieldX, toNat_fieldNN]
  omega

/-- A word is its first nibble and its low 12 bits. -/
theorem wordNNN_fields (w : Word) : wordNNN (fieldOp w) (fieldNNN w) = w := by
  apply BitVec.eq_of_toNat_eq
  rw [toNat_wordNNN, toNat_fieldOp, toNat_fieldNNN]
  omega

/-! ### Masks of the opcode map (R64) -/

theorem and_F000 (w : Word) : w &&& (0xF000 : Word) = wordXYN (fieldOp w) 0 0 0 := by
  have h : w &&& (0xF000 : Word) = (w >>> 12) <<< 12 := by
    ext i hi
    interval_cases i <;> simp
  apply BitVec.eq_of_toNat_eq
  rw [h, toNat_wordXYN, toNat_fieldOp]
  simp [Nat.shiftRight_eq_div_pow, Nat.shiftLeft_eq]
  omega

theorem and_F00F (w : Word) : w &&& (0xF00F : Word) = wordXYN (fieldOp w) 0 0 (fieldN w) := by
  have h : w &&& (0xF00F : Word) = ((w >>> 12) <<< 12) + ((w <<< 12) >>> 12) := by
    rw [BitVec.add_eq_or_of_and_eq_zero]
    · ext i hi
      interval_cases i <;> simp
    · ext i hi
      interval_cases i <;> simp
  apply BitVec.eq_of_toNat_eq
  rw [h, toNat_wordXYN, toNat_fieldOp, toNat_fieldN]
  simp [Nat.shiftRight_eq_div_pow, Nat.shiftLeft_eq]
  omega

theorem and_F0FF (w : Word) : w &&& (0xF0FF : Word) = wordXNN (fieldOp w) 0 (fieldNN w) := by
  have h : w &&& (0xF0FF : Word) = ((w >>> 12) <<< 12) + ((w <<< 8) >>> 8) := by
    rw [BitVec.add_eq_or_of_and_eq_zero]
    · ext i hi
      interval_cases i <;> simp
    · ext i hi
      interval_cases i <;> simp
  apply BitVec.eq_of_toNat_eq
  rw [h, toNat_wordXNN, toNat_fieldOp, toNat_fieldNN]
  simp [Nat.shiftRight_eq_div_pow, Nat.shiftLeft_eq]
  omega

theorem and_FFFF (w : Word) : w &&& (0xFFFF : Word) = w := by
  ext i hi
  interval_cases i <;> simp

end Sys2Proof
end

