-- ==== Sys2Proof/Laws/State.lean ====
section
/-! SUPPORT. What each update of the state does to each field, so that no later proof unfolds a record update, and the
register accessors. -/

namespace Sys2Proof.Machine

/-! ### `setReg` -/

@[simp] theorem setReg_mem (s : State) (x : Reg) (b : Byte) : (s.setReg x b).mem = s.mem := rfl
@[simp] theorem setReg_v (s : State) (x : Reg) (b : Byte) : (s.setReg x b).v = s.v.set x.val b x.isLt := rfl
@[simp] theorem setReg_i (s : State) (x : Reg) (b : Byte) : (s.setReg x b).i = s.i := rfl
@[simp] theorem setReg_pc (s : State) (x : Reg) (b : Byte) : (s.setReg x b).pc = s.pc := rfl
@[simp] theorem setReg_stack (s : State) (x : Reg) (b : Byte) : (s.setReg x b).stack = s.stack := rfl
@[simp] theorem setReg_sp (s : State) (x : Reg) (b : Byte) : (s.setReg x b).sp = s.sp := rfl
@[simp] theorem setReg_dt (s : State) (x : Reg) (b : Byte) : (s.setReg x b).dt = s.dt := rfl
@[simp] theorem setReg_st (s : State) (x : Reg) (b : Byte) : (s.setReg x b).st = s.st := rfl
@[simp] theorem setReg_key (s : State) (x : Reg) (b : Byte) : (s.setReg x b).key = s.key := rfl
@[simp] theorem setReg_fb (s : State) (x : Reg) (b : Byte) : (s.setReg x b).fb = s.fb := rfl
@[simp] theorem setReg_fault (s : State) (x : Reg) (b : Byte) : (s.setReg x b).fault = s.fault := rfl
@[simp] theorem setReg_cause (s : State) (x : Reg) (b : Byte) : (s.setReg x b).cause = s.cause := rfl
@[simp] theorem setReg_env (s : State) (x : Reg) (b : Byte) : (s.setReg x b).env = s.env := rfl

/-! ### `writeMem` -/

@[simp] theorem writeMem_mem (s : State) (a : Nat) (b : Byte) : (s.writeMem a b).mem = Memory.write s.env.font s.mem a b := rfl
@[simp] theorem writeMem_v (s : State) (a : Nat) (b : Byte) : (s.writeMem a b).v = s.v := rfl
@[simp] theorem writeMem_i (s : State) (a : Nat) (b : Byte) : (s.writeMem a b).i = s.i := rfl
@[simp] theorem writeMem_pc (s : State) (a : Nat) (b : Byte) : (s.writeMem a b).pc = s.pc := rfl
@[simp] theorem writeMem_stack (s : State) (a : Nat) (b : Byte) : (s.writeMem a b).stack = s.stack := rfl
@[simp] theorem writeMem_sp (s : State) (a : Nat) (b : Byte) : (s.writeMem a b).sp = s.sp := rfl
@[simp] theorem writeMem_dt (s : State) (a : Nat) (b : Byte) : (s.writeMem a b).dt = s.dt := rfl
@[simp] theorem writeMem_st (s : State) (a : Nat) (b : Byte) : (s.writeMem a b).st = s.st := rfl
@[simp] theorem writeMem_key (s : State) (a : Nat) (b : Byte) : (s.writeMem a b).key = s.key := rfl
@[simp] theorem writeMem_fb (s : State) (a : Nat) (b : Byte) : (s.writeMem a b).fb = s.fb := rfl
@[simp] theorem writeMem_fault (s : State) (a : Nat) (b : Byte) : (s.writeMem a b).fault = s.fault := rfl
@[simp] theorem writeMem_cause (s : State) (a : Nat) (b : Byte) : (s.writeMem a b).cause = s.cause := rfl
@[simp] theorem writeMem_env (s : State) (a : Nat) (b : Byte) : (s.writeMem a b).env = s.env := rfl

/-! ### `jumpTo` -/

@[simp] theorem jumpTo_mem (s : State) (p : Word) : (s.jumpTo p).mem = s.mem := rfl
@[simp] theorem jumpTo_v (s : State) (p : Word) : (s.jumpTo p).v = s.v := rfl
@[simp] theorem jumpTo_i (s : State) (p : Word) : (s.jumpTo p).i = s.i := rfl
@[simp] theorem jumpTo_pc (s : State) (p : Word) : (s.jumpTo p).pc = p := rfl
@[simp] theorem jumpTo_stack (s : State) (p : Word) : (s.jumpTo p).stack = s.stack := rfl
@[simp] theorem jumpTo_sp (s : State) (p : Word) : (s.jumpTo p).sp = s.sp := rfl
@[simp] theorem jumpTo_dt (s : State) (p : Word) : (s.jumpTo p).dt = s.dt := rfl
@[simp] theorem jumpTo_st (s : State) (p : Word) : (s.jumpTo p).st = s.st := rfl
@[simp] theorem jumpTo_key (s : State) (p : Word) : (s.jumpTo p).key = s.key := rfl
@[simp] theorem jumpTo_fb (s : State) (p : Word) : (s.jumpTo p).fb = s.fb := rfl
@[simp] theorem jumpTo_fault (s : State) (p : Word) : (s.jumpTo p).fault = s.fault := rfl
@[simp] theorem jumpTo_cause (s : State) (p : Word) : (s.jumpTo p).cause = s.cause := rfl
@[simp] theorem jumpTo_env (s : State) (p : Word) : (s.jumpTo p).env = s.env := rfl

/-! ### `rewind` -/

@[simp] theorem rewind_mem (s : State) : (s.rewind).mem = s.mem := rfl
@[simp] theorem rewind_v (s : State) : (s.rewind).v = s.v := rfl
@[simp] theorem rewind_i (s : State) : (s.rewind).i = s.i := rfl
@[simp] theorem rewind_pc (s : State) : (s.rewind).pc = s.pc - 2 := rfl
@[simp] theorem rewind_stack (s : State) : (s.rewind).stack = s.stack := rfl
@[simp] theorem rewind_sp (s : State) : (s.rewind).sp = s.sp := rfl
@[simp] theorem rewind_dt (s : State) : (s.rewind).dt = s.dt := rfl
@[simp] theorem rewind_st (s : State) : (s.rewind).st = s.st := rfl
@[simp] theorem rewind_key (s : State) : (s.rewind).key = s.key := rfl
@[simp] theorem rewind_fb (s : State) : (s.rewind).fb = s.fb := rfl
@[simp] theorem rewind_fault (s : State) : (s.rewind).fault = s.fault := rfl
@[simp] theorem rewind_cause (s : State) : (s.rewind).cause = s.cause := rfl
@[simp] theorem rewind_env (s : State) : (s.rewind).env = s.env := rfl

/-! ### `emit` -/

@[simp] theorem emit_mem (s : State) (o : HostOutput) : (s.emit o).mem = s.mem := rfl
@[simp] theorem emit_v (s : State) (o : HostOutput) : (s.emit o).v = s.v := rfl
@[simp] theorem emit_i (s : State) (o : HostOutput) : (s.emit o).i = s.i := rfl
@[simp] theorem emit_pc (s : State) (o : HostOutput) : (s.emit o).pc = s.pc := rfl
@[simp] theorem emit_stack (s : State) (o : HostOutput) : (s.emit o).stack = s.stack := rfl
@[simp] theorem emit_sp (s : State) (o : HostOutput) : (s.emit o).sp = s.sp := rfl
@[simp] theorem emit_dt (s : State) (o : HostOutput) : (s.emit o).dt = s.dt := rfl
@[simp] theorem emit_st (s : State) (o : HostOutput) : (s.emit o).st = s.st := rfl
@[simp] theorem emit_key (s : State) (o : HostOutput) : (s.emit o).key = s.key := rfl
@[simp] theorem emit_fb (s : State) (o : HostOutput) : (s.emit o).fb = s.fb := rfl
@[simp] theorem emit_fault (s : State) (o : HostOutput) : (s.emit o).fault = s.fault := rfl
@[simp] theorem emit_cause (s : State) (o : HostOutput) : (s.emit o).cause = s.cause := rfl
@[simp] theorem emit_env (s : State) (o : HostOutput) : (s.emit o).env = { s.env with outbox := o :: s.env.outbox } := rfl

/-! ### `withRnd` -/

@[simp] theorem withRnd_mem (s : State) (r : Byte) : (s.withRnd r).mem = s.mem := rfl
@[simp] theorem withRnd_v (s : State) (r : Byte) : (s.withRnd r).v = s.v := rfl
@[simp] theorem withRnd_i (s : State) (r : Byte) : (s.withRnd r).i = s.i := rfl
@[simp] theorem withRnd_pc (s : State) (r : Byte) : (s.withRnd r).pc = s.pc := rfl
@[simp] theorem withRnd_stack (s : State) (r : Byte) : (s.withRnd r).stack = s.stack := rfl
@[simp] theorem withRnd_sp (s : State) (r : Byte) : (s.withRnd r).sp = s.sp := rfl
@[simp] theorem withRnd_dt (s : State) (r : Byte) : (s.withRnd r).dt = s.dt := rfl
@[simp] theorem withRnd_st (s : State) (r : Byte) : (s.withRnd r).st = s.st := rfl
@[simp] theorem withRnd_key (s : State) (r : Byte) : (s.withRnd r).key = s.key := rfl
@[simp] theorem withRnd_fb (s : State) (r : Byte) : (s.withRnd r).fb = s.fb := rfl
@[simp] theorem withRnd_fault (s : State) (r : Byte) : (s.withRnd r).fault = s.fault := rfl
@[simp] theorem withRnd_cause (s : State) (r : Byte) : (s.withRnd r).cause = s.cause := rfl
@[simp] theorem withRnd_env (s : State) (r : Byte) : (s.withRnd r).env = { s.env with rnd := r } := rfl

/-! ### `advancePc` -/

@[simp] theorem advancePc_mem (s : State) : (s.advancePc).mem = s.mem := rfl
@[simp] theorem advancePc_v (s : State) : (s.advancePc).v = s.v := rfl
@[simp] theorem advancePc_i (s : State) : (s.advancePc).i = s.i := rfl
@[simp] theorem advancePc_pc (s : State) : (s.advancePc).pc = s.pc + 2 := rfl
@[simp] theorem advancePc_stack (s : State) : (s.advancePc).stack = s.stack := rfl
@[simp] theorem advancePc_sp (s : State) : (s.advancePc).sp = s.sp := rfl
@[simp] theorem advancePc_dt (s : State) : (s.advancePc).dt = s.dt := rfl
@[simp] theorem advancePc_st (s : State) : (s.advancePc).st = s.st := rfl
@[simp] theorem advancePc_key (s : State) : (s.advancePc).key = s.key := rfl
@[simp] theorem advancePc_fb (s : State) : (s.advancePc).fb = s.fb := rfl
@[simp] theorem advancePc_fault (s : State) : (s.advancePc).fault = s.fault := rfl
@[simp] theorem advancePc_cause (s : State) : (s.advancePc).cause = s.cause := rfl
@[simp] theorem advancePc_env (s : State) : (s.advancePc).env = s.env := rfl

/-! ### `withSchedule` -/

@[simp] theorem withSchedule_mem (s : State) (es : List HostEvent) : (s.withSchedule es).mem = s.mem := rfl
@[simp] theorem withSchedule_v (s : State) (es : List HostEvent) : (s.withSchedule es).v = s.v := rfl
@[simp] theorem withSchedule_i (s : State) (es : List HostEvent) : (s.withSchedule es).i = s.i := rfl
@[simp] theorem withSchedule_pc (s : State) (es : List HostEvent) : (s.withSchedule es).pc = s.pc := rfl
@[simp] theorem withSchedule_stack (s : State) (es : List HostEvent) : (s.withSchedule es).stack = s.stack := rfl
@[simp] theorem withSchedule_sp (s : State) (es : List HostEvent) : (s.withSchedule es).sp = s.sp := rfl
@[simp] theorem withSchedule_dt (s : State) (es : List HostEvent) : (s.withSchedule es).dt = s.dt := rfl
@[simp] theorem withSchedule_st (s : State) (es : List HostEvent) : (s.withSchedule es).st = s.st := rfl
@[simp] theorem withSchedule_key (s : State) (es : List HostEvent) : (s.withSchedule es).key = s.key := rfl
@[simp] theorem withSchedule_fb (s : State) (es : List HostEvent) : (s.withSchedule es).fb = s.fb := rfl
@[simp] theorem withSchedule_fault (s : State) (es : List HostEvent) : (s.withSchedule es).fault = s.fault := rfl
@[simp] theorem withSchedule_cause (s : State) (es : List HostEvent) : (s.withSchedule es).cause = s.cause := rfl
@[simp] theorem withSchedule_env (s : State) (es : List HostEvent) : (s.withSchedule es).env = { s.env with schedule := es } := rfl

/-! ### `withRecurring` -/

@[simp] theorem withRecurring_mem (s : State) (ps : List PlannedEvent) : (s.withRecurring ps).mem = s.mem := rfl
@[simp] theorem withRecurring_v (s : State) (ps : List PlannedEvent) : (s.withRecurring ps).v = s.v := rfl
@[simp] theorem withRecurring_i (s : State) (ps : List PlannedEvent) : (s.withRecurring ps).i = s.i := rfl
@[simp] theorem withRecurring_pc (s : State) (ps : List PlannedEvent) : (s.withRecurring ps).pc = s.pc := rfl
@[simp] theorem withRecurring_stack (s : State) (ps : List PlannedEvent) : (s.withRecurring ps).stack = s.stack := rfl
@[simp] theorem withRecurring_sp (s : State) (ps : List PlannedEvent) : (s.withRecurring ps).sp = s.sp := rfl
@[simp] theorem withRecurring_dt (s : State) (ps : List PlannedEvent) : (s.withRecurring ps).dt = s.dt := rfl
@[simp] theorem withRecurring_st (s : State) (ps : List PlannedEvent) : (s.withRecurring ps).st = s.st := rfl
@[simp] theorem withRecurring_key (s : State) (ps : List PlannedEvent) : (s.withRecurring ps).key = s.key := rfl
@[simp] theorem withRecurring_fb (s : State) (ps : List PlannedEvent) : (s.withRecurring ps).fb = s.fb := rfl
@[simp] theorem withRecurring_fault (s : State) (ps : List PlannedEvent) : (s.withRecurring ps).fault = s.fault := rfl
@[simp] theorem withRecurring_cause (s : State) (ps : List PlannedEvent) : (s.withRecurring ps).cause = s.cause := rfl
@[simp] theorem withRecurring_env (s : State) (ps : List PlannedEvent) : (s.withRecurring ps).env = { s.env with recurring := ps } := rfl

/-! ### `countDraw` -/

@[simp] theorem countDraw_mem (s : State) : (s.countDraw).mem = s.mem := rfl
@[simp] theorem countDraw_v (s : State) : (s.countDraw).v = s.v := rfl
@[simp] theorem countDraw_i (s : State) : (s.countDraw).i = s.i := rfl
@[simp] theorem countDraw_pc (s : State) : (s.countDraw).pc = s.pc := rfl
@[simp] theorem countDraw_stack (s : State) : (s.countDraw).stack = s.stack := rfl
@[simp] theorem countDraw_sp (s : State) : (s.countDraw).sp = s.sp := rfl
@[simp] theorem countDraw_dt (s : State) : (s.countDraw).dt = s.dt := rfl
@[simp] theorem countDraw_st (s : State) : (s.countDraw).st = s.st := rfl
@[simp] theorem countDraw_key (s : State) : (s.countDraw).key = s.key := rfl
@[simp] theorem countDraw_fb (s : State) : (s.countDraw).fb = s.fb := rfl
@[simp] theorem countDraw_fault (s : State) : (s.countDraw).fault = s.fault := rfl
@[simp] theorem countDraw_cause (s : State) : (s.countDraw).cause = s.cause := rfl
@[simp] theorem countDraw_env (s : State) : (s.countDraw).env = { s.env with draws := s.env.draws + 1 } := rfl

/-! ### `skipIf` -/

@[simp] theorem skipIf_mem (s : State) (c : Bool) : (s.skipIf c).mem = s.mem := by cases c <;> rfl
@[simp] theorem skipIf_v (s : State) (c : Bool) : (s.skipIf c).v = s.v := by cases c <;> rfl
@[simp] theorem skipIf_i (s : State) (c : Bool) : (s.skipIf c).i = s.i := by cases c <;> rfl
@[simp] theorem skipIf_pc (s : State) (c : Bool) : (s.skipIf c).pc = if c then s.pc + 2 else s.pc := by cases c <;> rfl
@[simp] theorem skipIf_stack (s : State) (c : Bool) : (s.skipIf c).stack = s.stack := by cases c <;> rfl
@[simp] theorem skipIf_sp (s : State) (c : Bool) : (s.skipIf c).sp = s.sp := by cases c <;> rfl
@[simp] theorem skipIf_dt (s : State) (c : Bool) : (s.skipIf c).dt = s.dt := by cases c <;> rfl
@[simp] theorem skipIf_st (s : State) (c : Bool) : (s.skipIf c).st = s.st := by cases c <;> rfl
@[simp] theorem skipIf_key (s : State) (c : Bool) : (s.skipIf c).key = s.key := by cases c <;> rfl
@[simp] theorem skipIf_fb (s : State) (c : Bool) : (s.skipIf c).fb = s.fb := by cases c <;> rfl
@[simp] theorem skipIf_fault (s : State) (c : Bool) : (s.skipIf c).fault = s.fault := by cases c <;> rfl
@[simp] theorem skipIf_cause (s : State) (c : Bool) : (s.skipIf c).cause = s.cause := by cases c <;> rfl
@[simp] theorem skipIf_env (s : State) (c : Bool) : (s.skipIf c).env = s.env := by cases c <;> rfl

/-! ### Fault entry and reset -/

@[simp] theorem enterFault_fault (c : Fault) (s : State) : (enterFault c s).fault = true := rfl
@[simp] theorem enterFault_cause (c : Fault) (s : State) : (enterFault c s).cause = some c := rfl
@[simp] theorem enterFault_env (c : Fault) (s : State) :
    (enterFault c s).env = { s.env with draws := s.env.draws + 1 } := rfl
@[simp] theorem enterFault_mem (c : Fault) (s : State) :
    (enterFault c s).mem = Memory.ofBytes s.env.font (Config.lostByte s.env.draws) := rfl
@[simp] theorem raise_eq (c : Fault) (s : State) : raise c s = .next (enterFault c s) := rfl
@[simp] theorem orRaise_ok (s t : State) : orRaise s (.ok t) = .next t := rfl
@[simp] theorem orRaise_error (s : State) (c : Fault) : orRaise s (.error c) = .next (enterFault c s) := rfl
@[simp] theorem resetCore_env (s : State) : (resetCore s).env = s.env := rfl
@[simp] theorem resetCore_fault (s : State) : (resetCore s).fault = false := rfl
@[simp] theorem resetCore_mem (s : State) : (resetCore s).mem = [] := rfl

/-! ### Registers -/

theorem reg_setReg (s : State) (x j : Reg) (b : Byte) : (s.setReg x b).reg j = if j = x then b else s.reg j := by
  simp only [State.reg, State.setReg, Fin.getElem_fin, Vector.getElem_set, Fin.ext_iff, eq_comm]

@[simp] theorem reg_setReg_self (s : State) (x : Reg) (b : Byte) : (s.setReg x b).reg x = b := by
  simp [reg_setReg]

theorem reg_setReg_ne {x j : Reg} (h : j ≠ x) (s : State) (b : Byte) : (s.setReg x b).reg j = s.reg j := by
  simp [reg_setReg, h]

/-- A result and a flag: VF holds the flag, `V[x]` the result unless it is VF, every other register is as before. -/
theorem reg_setRegFlag (s : State) (x j : Reg) (result flag : Byte) :
    (s.setRegFlag x result flag).reg j = if j = vf then flag else if j = x then result else s.reg j := by
  simp [State.setRegFlag, reg_setReg]

/-- Nothing but the registers is changed by a result and a flag. -/
theorem setRegFlag_eq (s : State) (x : Reg) (result flag : Byte) :
    s.setRegFlag x result flag = { s with v := (s.setRegFlag x result flag).v } := rfl

@[simp] theorem reg_writeMem (s : State) (a : Nat) (b : Byte) (j : Reg) : (s.writeMem a b).reg j = s.reg j := rfl
@[simp] theorem reg_jumpTo (s : State) (p : Word) (j : Reg) : (s.jumpTo p).reg j = s.reg j := rfl
@[simp] theorem reg_rewind (s : State) (j : Reg) : s.rewind.reg j = s.reg j := rfl
@[simp] theorem reg_emit (s : State) (o : HostOutput) (j : Reg) : (s.emit o).reg j = s.reg j := rfl
@[simp] theorem reg_withRnd (s : State) (r : Byte) (j : Reg) : (s.withRnd r).reg j = s.reg j := rfl
@[simp] theorem reg_advancePc (s : State) (j : Reg) : s.advancePc.reg j = s.reg j := rfl
@[simp] theorem reg_withSchedule (s : State) (es : List HostEvent) (j : Reg) : (s.withSchedule es).reg j = s.reg j := rfl
@[simp] theorem reg_withRecurring (s : State) (ps : List PlannedEvent) (j : Reg) : (s.withRecurring ps).reg j = s.reg j := rfl
@[simp] theorem reg_countDraw (s : State) (j : Reg) : s.countDraw.reg j = s.reg j := rfl
@[simp] theorem reg_skipIf (s : State) (c : Bool) (j : Reg) : (s.skipIf c).reg j = s.reg j := by cases c <;> rfl

/-! ### Memory reads through the other updates -/

@[simp] theorem readMem_setReg (s : State) (x : Reg) (b : Byte) (a : Nat) : (s.setReg x b).readMem a = s.readMem a := rfl
@[simp] theorem readMem_jumpTo (s : State) (p : Word) (a : Nat) : (s.jumpTo p).readMem a = s.readMem a := rfl
@[simp] theorem readMem_rewind (s : State) (a : Nat) : s.rewind.readMem a = s.readMem a := rfl
@[simp] theorem readMem_emit (s : State) (o : HostOutput) (a : Nat) : (s.emit o).readMem a = s.readMem a := rfl
@[simp] theorem readMem_withRnd (s : State) (r : Byte) (a : Nat) : (s.withRnd r).readMem a = s.readMem a := rfl
@[simp] theorem readMem_advancePc (s : State) (a : Nat) : s.advancePc.readMem a = s.readMem a := rfl
@[simp] theorem readMem_withSchedule (s : State) (es : List HostEvent) (a : Nat) : (s.withSchedule es).readMem a = s.readMem a := rfl
@[simp] theorem readMem_withRecurring (s : State) (ps : List PlannedEvent) (a : Nat) : (s.withRecurring ps).readMem a = s.readMem a := rfl
@[simp] theorem readMem_countDraw (s : State) (a : Nat) : s.countDraw.readMem a = s.readMem a := rfl
@[simp] theorem readMem_skipIf (s : State) (c : Bool) (a : Nat) : (s.skipIf c).readMem a = s.readMem a := by
  cases c <;> rfl

end Sys2Proof.Machine
end

