-- ==== Sys2Proof/Laws/Memory.lean ====
section
/-! SUPPORT. The laws of memory: read after write, the canonical form is kept by every operation, and what a run of
single-byte reads or writes does (20_memory.md R42, R48). -/

namespace Sys2Proof.Machine

variable (font : Vector Byte Config.fontSize)

/-! ### Lookup -/

theorem find_insert (m : Memory) (a : Nat) (b : Byte) (k : Nat) :
    Memory.find (Memory.insert m a b) k = if k = a then some b else Memory.find m k := by
  induction m with
  | nil => simp [Memory.insert, Memory.find, eq_comm]
  | cons c rest ih =>
    simp only [Memory.insert]
    split
    · simp only [Memory.find, eq_comm]
    · split
      · rename_i h
        simp only [Memory.find, h, eq_comm]
        split <;> rfl
      · rename_i h
        simp only [Memory.find, ih]
        by_cases hk : c.1 = k
        · have : k ≠ a := by omega
          simp [hk, this]
        · simp [hk]

theorem find_erase (m : Memory) (a k : Nat) :
    Memory.find (Memory.erase m a) k = if k = a then none else Memory.find m k := by
  induction m with
  | nil => simp [Memory.erase, Memory.find]
  | cons c rest ih =>
    simp only [Memory.erase]
    by_cases hc : c.1 = a
    · by_cases hk : k = a
      · subst hk
        simp [hc, ih]
      · have : a ≠ k := Ne.symm hk
        simp [hc, ih, hk, Memory.find, this]
    · by_cases hk : c.1 = k
      · have : k ≠ a := by omega
        simp [Memory.find, hk, this]
      · simp [hc, Memory.find, hk, ih]

/-- Read after write: the byte written at its address, every other byte as before. -/
theorem read_write (m : Memory) (a : Nat) (b : Byte) (k : Nat) :
    Memory.read font (Memory.write font m a b) k = if k = a then b else Memory.read font m k := by
  unfold Memory.read Memory.write
  split
  · rename_i h
    rw [find_erase]
    split
    · simp [*]
    · rfl
  · rw [find_insert]
    split <;> simp

theorem readMem_writeMem (s : State) (a : Nat) (b : Byte) (k : Nat) :
    (s.writeMem a b).readMem k = if k = a then b else s.readMem k :=
  read_write s.env.font s.mem a b k

/-- What consecutive writes leave: the bytes written in their places, every other byte as before. -/
theorem read_writeBytes (bs : List Byte) (m : Memory) (a k : Nat) :
    Memory.read font (Memory.writeBytes font m a bs) k =
      if h : a ≤ k ∧ k < a + bs.length then bs[k - a] else Memory.read font m k := by
  induction bs generalizing m a with
  | nil =>
    have h : ¬(a ≤ k ∧ k < a + ([] : List Byte).length) := by simp
    rw [dif_neg h]
    rfl
  | cons b bs ih =>
    simp only [Memory.writeBytes, ih, read_write]
    by_cases h1 : a + 1 ≤ k ∧ k < a + 1 + bs.length
    · have h2 : a ≤ k ∧ k < a + (b :: bs).length := by simp; omega
      rw [dif_pos h1, dif_pos h2]
      have : k - a = (k - (a + 1)) + 1 := by omega
      simp [this]
    · rw [dif_neg h1]
      by_cases hk : k = a
      · subst hk
        simp
      · have h2 : ¬(a ≤ k ∧ k < a + (b :: bs).length) := by simp; omega
        rw [dif_neg h2, if_neg hk]

/-! ### The canonical form -/

theorem mem_insert {m : Memory} {a : Nat} {b : Byte} {c : Host.Cell} (h : c ∈ Memory.insert m a b) :
    c = (a, b) ∨ c ∈ m := by
  induction m with
  | nil => simpa [Memory.insert] using h
  | cons d rest ih =>
    simp only [Memory.insert] at h
    split at h
    · simpa using h
    · split at h
      · simp only [List.mem_cons] at h ⊢
        tauto
      · simp only [List.mem_cons] at h ⊢
        rcases h with h | h
        · tauto
        · rcases ih h with h | h <;> tauto

theorem mem_erase {m : Memory} {a : Nat} {c : Host.Cell} (h : c ∈ Memory.erase m a) : c ∈ m := by
  induction m with
  | nil => simp [Memory.erase] at h
  | cons d rest ih =>
    simp only [Memory.erase] at h
    split at h
    · exact List.mem_cons_of_mem _ (ih h)
    · simp only [List.mem_cons] at h ⊢
      rcases h with h | h
      · exact Or.inl h
      · exact Or.inr (ih h)

theorem insert_rising {m : Memory} (h : List.Pairwise (fun c d => c.1 < d.1) m) (a : Nat) (b : Byte) :
    List.Pairwise (fun c d => c.1 < d.1) (Memory.insert m a b) := by
  induction m with
  | nil => simp [Memory.insert]
  | cons d rest ih =>
    rw [List.pairwise_cons] at h
    simp only [Memory.insert]
    split
    · rename_i hlt
      refine List.pairwise_cons.2 ⟨fun c hc => ?_, List.pairwise_cons.2 h⟩
      rcases List.mem_cons.1 hc with rfl | hc
      · exact hlt
      · exact Nat.lt_trans hlt (h.1 c hc)
    · split
      · rename_i heq
        exact List.pairwise_cons.2 ⟨fun c hc => heq ▸ h.1 c hc, h.2⟩
      · refine List.pairwise_cons.2 ⟨fun c hc => ?_, ih h.2⟩
        rcases mem_insert hc with rfl | hc
        · change d.1 < a
          omega
        · exact h.1 c hc

theorem erase_rising {m : Memory} (h : List.Pairwise (fun c d => c.1 < d.1) m) (a : Nat) :
    List.Pairwise (fun c d => c.1 < d.1) (Memory.erase m a) := by
  induction m with
  | nil => simp [Memory.erase]
  | cons d rest ih =>
    rw [List.pairwise_cons] at h
    simp only [Memory.erase]
    split
    · exact ih h.2
    · exact List.pairwise_cons.2 ⟨fun c hc => h.1 c (mem_erase hc), ih h.2⟩

/-- A write below 4096 keeps the canonical form. -/
theorem write_wf {m : Memory} (h : Memory.wf font m) {a : Nat} (ha : a < Config.memSize) (b : Byte) :
    Memory.wf font (Memory.write font m a b) := by
  unfold Memory.write
  split
  · exact ⟨erase_rising h.1 a, fun c hc => h.2 c (mem_erase hc)⟩
  · rename_i hb
    refine ⟨insert_rising h.1 a b, fun c hc => ?_⟩
    rcases mem_insert hc with rfl | hc
    · exact ⟨ha, hb⟩
    · exact h.2 c hc

/-- Consecutive writes below 4096 keep the canonical form. -/
theorem writeBytes_wf (bs : List Byte) {m : Memory} (h : Memory.wf font m) {a : Nat}
    (ha : a + bs.length ≤ Config.memSize) : Memory.wf font (Memory.writeBytes font m a bs) := by
  induction bs generalizing m a with
  | nil => exact h
  | cons b bs ih =>
    simp only [List.length_cons] at ha
    exact ih (write_wf font h (by omega) b) (by omega)

/-- The memory of a faulted state is in canonical form, whatever its bytes. -/
theorem ofBytes_wf (f : Nat → Byte) : Memory.wf font (Memory.ofBytes font f) := by
  unfold Memory.ofBytes
  constructor
  · refine List.Pairwise.filterMap _ ?_ List.pairwise_lt_range
    intro a a' hlt c hc d hd
    split at hc
    · simp at hc
    · split at hd
      · simp at hd
      · simp only [Option.some.injEq] at hc hd
        subst hc hd
        exact hlt
  · intro c hc
    obtain ⟨a, ha, hc⟩ := List.mem_filterMap.1 hc
    split at hc
    · simp at hc
    · rename_i hne
      simp only [Option.some.injEq] at hc
      subst hc
      exact ⟨List.mem_range.1 ha, hne⟩

/-- Reset memory, which lists nothing, is in canonical form. -/
theorem nil_wf : Memory.wf font [] := ⟨List.Pairwise.nil, by simp⟩

/-- Fault entry leaves memory in canonical form. -/
theorem enterFault_memWf (c : Fault) (s : State) : (enterFault c s).memWf := ofBytes_wf _ _

theorem writeMem_memWf {s : State} (h : s.memWf) {a : Nat} (ha : a < Config.memSize) (b : Byte) :
    (s.writeMem a b).memWf := write_wf _ h ha b

/-! ### Runs of single-byte reads and writes -/

/-- `n` reads from `a`: the `n` bytes there, or the fault when one of them lies at 4096 or above. -/
theorem loadBytes_eq (s : State) (a n : Nat) :
    loadBytes s a n =
      if n = 0 ∨ a + n ≤ Config.memSize then .ok ((List.range' a n).map s.readMem) else .error .dataAddrRange := by
  induction n generalizing a with
  | zero => simp [loadBytes]
  | succ n ih =>
    simp only [loadBytes, memRead, ih]
    by_cases h1 : a < Config.memSize
    · by_cases h2 : a + (n + 1) ≤ Config.memSize
      · have h3 : n = 0 ∨ a + 1 + n ≤ Config.memSize := by omega
        simp [h1, h2, h3, List.range'_succ]
      · have h3 : ¬(n = 0 ∨ a + 1 + n ≤ Config.memSize) := by omega
        simp [h1, h2, h3]
    · have h2 : ¬(a + (n + 1) ≤ Config.memSize) := by omega
      simp [h1, h2]

/-- Writes of `bs` from `a`: memory with the bytes in their places, or the fault when one of them lies at 4096 or
above. Nothing but memory changes. -/
theorem storeBytes_eq (s : State) (a : Nat) (bs : List Byte) :
    storeBytes s a bs =
      if bs = [] ∨ a + bs.length ≤ Config.memSize then
        .ok { s with mem := Memory.writeBytes s.env.font s.mem a bs }
      else .error .dataAddrRange := by
  induction bs generalizing s a with
  | nil => simp [storeBytes, Memory.writeBytes]
  | cons b bs ih =>
    simp only [storeBytes, memWrite, List.length_cons, Memory.writeBytes]
    by_cases h1 : a < Config.memSize
    · simp only [h1, if_true, ih]
      by_cases h2 : a + (bs.length + 1) ≤ Config.memSize
      · have h3 : bs = [] ∨ a + 1 + bs.length ≤ Config.memSize := by omega
        simp [h2, h3, State.writeMem]
      · have h4 : bs ≠ [] := by
          rintro rfl
          simp at h2
          omega
        have h3 : ¬(bs = [] ∨ a + 1 + bs.length ≤ Config.memSize) := by
          simp only [h4, false_or]
          omega
        simp [h2, h3]
    · have h2 : ¬(a + (bs.length + 1) ≤ Config.memSize) := by omega
      simp [h1, h2]

/-- What memory reads as after bytes were stored. -/
theorem readMem_stored (s : State) (a : Nat) (bs : List Byte) (k : Nat) :
    ({ s with mem := Memory.writeBytes s.env.font s.mem a bs } : State).readMem k =
      if h : a ≤ k ∧ k < a + bs.length then bs[k - a] else s.readMem k :=
  read_writeBytes s.env.font bs s.mem a k

/-- Storing below 4096 keeps the canonical form. -/
theorem stored_memWf {s : State} (h : s.memWf) {a : Nat} {bs : List Byte} (hb : a + bs.length ≤ Config.memSize) :
    ({ s with mem := Memory.writeBytes s.env.font s.mem a bs } : State).memWf :=
  writeBytes_wf _ bs h hb

end Sys2Proof.Machine
end

