-- ==== Sys2Proof/Laws/Ops.lean ====
section
/-! SUPPORT. One lemma per shared operation over the stack, the keys, the registers and the framebuffer, saying
everything it can do. -/

namespace Sys2Proof.Machine

/-! ### Call stack (10_state.md R20) -/

theorem push_full {s : State} (h : s.sp.val = 16) (w : Word) : push s w = .error .stackOverflow := by
  simp [push, h]

theorem push_room {s : State} (h : s.sp.val < 16) (w : Word) :
    push s w = .ok { s with stack := s.stack.set s.sp.val w h, sp := ⟨s.sp.val + 1, by omega⟩ } := by
  simp [push, h]

theorem pop_empty {s : State} (h : s.sp.val = 0) : pop s = .error .stackUnderflow := by
  simp [pop, h]

theorem pop_live {s : State} (h : s.sp.val ≠ 0) :
    pop s = .ok (s.stack[s.sp.val - 1]'(by omega), { s with sp := ⟨s.sp.val - 1, by omega⟩ }) := by
  simp [pop, h]

/-! ### Keys (44_keys_timers.md R156) -/

theorem withKey_inRange {s : State} {x : Reg} (h : (s.reg x).toNat < 16) (f : Bool → State) :
    withKey s x f = .ok (f (s.keyFlag ⟨(s.reg x).toNat, h⟩)) := by
  simp [withKey, keyIndex, h]

theorem withKey_outOfRange {s : State} {x : Reg} (h : ¬(s.reg x).toNat < 16) (f : Bool → State) :
    withKey s x f = .error .keyIndexRange := by
  simp [withKey, keyIndex, h]

/-! ### reg-load's and reg-dump's registers (42_index_memory.md R124, R125) -/

/-- `loadRegs` writes consecutive registers from `k` and leaves the others. -/
theorem getElem_loadRegs (bs : List Byte) (v : Vector Byte 16) (k j : Nat) (hj : j < 16) :
    (loadRegs v k bs)[j] = if h : k ≤ j ∧ j < k + bs.length then bs[j - k] else v[j] := by
  induction bs generalizing v k with
  | nil =>
    have h : ¬(k ≤ j ∧ j < k + ([] : List Byte).length) := by simp
    rw [dif_neg h]
    rfl
  | cons b bs ih =>
    simp only [loadRegs, ih]
    by_cases h1 : k + 1 ≤ j ∧ j < k + 1 + bs.length
    · have h2 : k ≤ j ∧ j < k + (b :: bs).length := by simp; omega
      rw [dif_pos h1, dif_pos h2]
      have : j - k = (j - (k + 1)) + 1 := by omega
      simp [this]
    · rw [dif_neg h1, Vector.getElem_setIfInBounds hj]
      by_cases hk : k = j
      · subst hk
        simp
      · have h2 : ¬(k ≤ j ∧ j < k + (b :: bs).length) := by simp; omega
        rw [dif_neg h2, if_neg hk]

theorem length_regsUpTo (s : State) (x : Reg) : (s.regsUpTo x).length = x.val + 1 := by
  simp [State.regsUpTo]

theorem getElem_regsUpTo (s : State) (x : Reg) (k : Nat) (h : k < (s.regsUpTo x).length) :
    (s.regsUpTo x)[k] = s.reg ⟨k, by rw [length_regsUpTo] at h; omega⟩ := by
  simp [State.regsUpTo, State.reg]

/-! ### Framebuffer (20_memory.md R52, 43_display.md R142) -/

theorem cellOf_clearCells (i : Fin 2048) : cellOf clearCells i = false := by
  simp [cellOf, clearCells]

/-- Setting a cell makes it true and leaves every other cell. -/
theorem cellOf_setCell (fb : FrameBuffer) (i j : Fin 2048) :
    cellOf (setCell fb i) j = (decide (j = i) || cellOf fb j) := by
  simp only [cellOf, setCell, Vector.getElem_set]
  by_cases hrow : i.val / 64 = j.val / 64
  · simp only [hrow, if_true, BitVec.getLsbD_or, BitVec.getLsbD_twoPow]
    by_cases h : j = i
    · subst h
      simp
      omega
    · have : i.val % 64 ≠ j.val % 64 := fun hc => h (Fin.ext (by omega))
      simp [h, this]
  · have : j ≠ i := fun h => hrow (by rw [h])
    simp [hrow, this]

/-- What a run of draw's loop leaves in each cell: true if it was reached, else as before. -/
theorem cellOf_paint (is : List (Fin 2048)) (fb : FrameBuffer) (hit : Bool) (j : Fin 2048) :
    cellOf (paint (fb, hit) is).1 j = (decide (j ∈ is) || cellOf fb j) := by
  induction is generalizing fb hit with
  | nil => simp [paint]
  | cons i is ih =>
    simp only [paint, ih, cellOf_setCell, List.mem_cons]
    by_cases h : j = i <;> simp [h]

/-- The collision draw's loop reports, when no cell is reached twice: some cell reached was true before. -/
theorem hit_paint (is : List (Fin 2048)) (hnd : is.Nodup) (fb : FrameBuffer) (hit : Bool) :
    (paint (fb, hit) is).2 = (hit || is.any (cellOf fb)) := by
  induction is generalizing fb hit with
  | nil => simp [paint]
  | cons i is ih =>
    rw [List.nodup_cons] at hnd
    have hsame : is.any (cellOf (setCell fb i)) = is.any (cellOf fb) := by
      rw [Bool.eq_iff_iff, List.any_eq_true, List.any_eq_true]
      refine exists_congr fun j => and_congr_right fun hj => ?_
      have : j ≠ i := fun h => hnd.1 (h ▸ hj)
      simp [cellOf_setCell, this]
    simp only [paint, ih hnd.2, List.any_cons, hsame, Bool.or_assoc]

/-- The cells one sprite row reaches. -/
theorem mem_rowCells (vx vy : Byte) (row : Nat) (b : Byte) (j : Fin 2048) :
    j ∈ rowCells vx vy row b ↔ ∃ col, col < 8 ∧ b.getLsbD (7 - col) = true ∧ j = spriteCell vx vy row col := by
  have hcol : ∀ col, col ∈ spriteColumns ↔ col < 8 := by
    intro col
    simp only [spriteColumns, List.mem_cons, List.not_mem_nil, or_false]
    omega
  simp only [rowCells, List.mem_map, List.mem_filter, hcol]
  constructor
  · rintro ⟨col, ⟨h1, h2⟩, rfl⟩
    exact ⟨col, h1, h2, rfl⟩
  · rintro ⟨col, h1, h2, rfl⟩
    exact ⟨col, ⟨h1, h2⟩, rfl⟩

/-- The cells a sprite reaches, as a set: for each row and each set bit of it, the wrapped coordinate. -/
theorem mem_spriteCells (vx vy : Byte) (row : Nat) (bs : List Byte) (j : Fin 2048) :
    j ∈ spriteCells vx vy row bs ↔
      ∃ k, ∃ h : k < bs.length, ∃ col, col < 8 ∧ bs[k].getLsbD (7 - col) = true ∧ j = spriteCell vx vy (row + k) col := by
  induction bs generalizing row with
  | nil => simp [spriteCells]
  | cons b bs ih =>
    simp only [spriteCells, List.mem_append, mem_rowCells, ih]
    constructor
    · rintro (⟨col, h⟩ | ⟨k, hk, col, h⟩)
      · exact ⟨0, by simp, col, by simpa using h⟩
      · refine ⟨k + 1, by simpa using hk, col, ?_⟩
        have : row + (k + 1) = row + 1 + k := by omega
        simpa [this] using h
    · rintro ⟨k, hk, col, h⟩
      cases k with
      | zero => exact Or.inl ⟨col, by simpa using h⟩
      | succ k =>
        refine Or.inr ⟨k, by simpa using hk, col, ?_⟩
        have : row + (k + 1) = row + 1 + k := by omega
        simpa [this] using h

/-- Two bits of one sprite reach different cells: columns are distinct modulo 64 and rows modulo 32 (R141(d)). -/
theorem spriteCell_inj {vx vy : Byte} {r r' c c' : Nat} (hr : r < r' + 32) (hr' : r' < r + 32) (hc : c < 8) (hc' : c' < 8)
    (h : spriteCell vx vy r c = spriteCell vx vy r' c') : r = r' ∧ c = c' := by
  simp only [spriteCell, getIndex, Fin.mk.injEq] at h
  omega

end Sys2Proof.Machine
end

