-- ==== Sys2Proof/Laws/Frames.lean ====
section
/-! SUPPORT. The frames of the shared updates: what each leaves unchanged, said once. -/

namespace Sys2Proof.Machine

theorem frame_setReg (s : State) (x : Reg) (b : Byte) : OnlyRegsWritten [x] s (s.setReg x b) := by
  refine ⟨fun p _ => ?_, fun j hj => ?_, fun a => rfl⟩
  · cases p <;> rfl
  · exact reg_setReg_ne (by simpa using hj) s b

theorem frame_setRegFlag (s : State) (x : Reg) (result flag : Byte) :
    OnlyRegsWritten [x, vf] s (s.setRegFlag x result flag) := by
  refine ⟨fun p _ => ?_, fun j hj => ?_, fun a => rfl⟩
  · cases p <;> rfl
  · simp only [List.mem_cons, List.not_mem_nil, or_false, not_or] at hj
    rw [reg_setRegFlag, if_neg hj.2, if_neg hj.1]

theorem frame_jumpTo (s : State) (p : Word) : OnlyPc s (s.jumpTo p) := by
  refine ⟨fun p hp => ?_, fun j _ => rfl, fun a => rfl⟩
  cases p <;> first | rfl | simp at hp

theorem frame_rewind (s : State) : OnlyPc s s.rewind := by
  refine ⟨fun p hp => ?_, fun j _ => rfl, fun a => rfl⟩
  cases p <;> first | rfl | simp at hp

theorem frame_self (s : State) : OnlyPc s s := by
  refine ⟨fun p _ => ?_, fun j _ => rfl, fun a => rfl⟩
  cases p <;> rfl

theorem frame_skipIf (s : State) (c : Bool) : OnlyPc s (s.skipIf c) := by
  cases c
  · exact frame_self s
  · exact frame_jumpTo s (s.pc + 2)

/-- Storing bytes changes those bytes alone. -/
theorem frame_stored (s : State) (a : Nat) (bs : List Byte) :
    OnlyBytesWritten a bs.length s { s with mem := Memory.writeBytes s.env.font s.mem a bs } := by
  refine ⟨fun p _ => ?_, fun j _ => rfl, fun k hk => ?_⟩
  · cases p <;> rfl
  · rw [readMem_stored, dif_neg (by omega)]

/-- Fault entry, as the claims read it. -/
theorem faulted_enterFault (c : Fault) (s : State) : Faulted c s (enterFault c s) := ⟨rfl, rfl, rfl, rfl, rfl, rfl⟩

/-- The same core: reflexive, and transitive along a run. -/
theorem sameCore_refl (s : State) : SameCore s s := rfl

theorem sameCore_trans {s t u : State} (h1 : SameCore s t) (h2 : SameCore t u) : SameCore s u := by
  unfold SameCore at *
  rw [← h1, ← h2]

/-! ### The pieces of the same core -/

theorem sameCore_mem {s t : State} (h : SameCore s t) : t.mem = s.mem :=
  (congrArg State.mem (show ({ t with env := s.env } : State) = s from h) :)
theorem sameCore_v {s t : State} (h : SameCore s t) : t.v = s.v :=
  (congrArg State.v (show ({ t with env := s.env } : State) = s from h) :)
theorem sameCore_i {s t : State} (h : SameCore s t) : t.i = s.i :=
  (congrArg State.i (show ({ t with env := s.env } : State) = s from h) :)
theorem sameCore_pc {s t : State} (h : SameCore s t) : t.pc = s.pc :=
  (congrArg State.pc (show ({ t with env := s.env } : State) = s from h) :)
theorem sameCore_stack {s t : State} (h : SameCore s t) : t.stack = s.stack :=
  (congrArg State.stack (show ({ t with env := s.env } : State) = s from h) :)
theorem sameCore_sp {s t : State} (h : SameCore s t) : t.sp = s.sp :=
  (congrArg State.sp (show ({ t with env := s.env } : State) = s from h) :)
theorem sameCore_dt {s t : State} (h : SameCore s t) : t.dt = s.dt :=
  (congrArg State.dt (show ({ t with env := s.env } : State) = s from h) :)
theorem sameCore_st {s t : State} (h : SameCore s t) : t.st = s.st :=
  (congrArg State.st (show ({ t with env := s.env } : State) = s from h) :)
theorem sameCore_key {s t : State} (h : SameCore s t) : t.key = s.key :=
  (congrArg State.key (show ({ t with env := s.env } : State) = s from h) :)
theorem sameCore_fb {s t : State} (h : SameCore s t) : t.fb = s.fb :=
  (congrArg State.fb (show ({ t with env := s.env } : State) = s from h) :)
theorem sameCore_fault {s t : State} (h : SameCore s t) : t.fault = s.fault :=
  (congrArg State.fault (show ({ t with env := s.env } : State) = s from h) :)
theorem sameCore_cause {s t : State} (h : SameCore s t) : t.cause = s.cause :=
  (congrArg State.cause (show ({ t with env := s.env } : State) = s from h) :)

end Sys2Proof.Machine
end

