-- ==== Sys2Proof/Laws/Events.lean ====
section
/-! SUPPORT. What a fetch, a `Tick` and an event can do, said once (10_state.md R16, 60_exceptions.md R183, R194). -/

namespace Sys2Proof.Machine

/-- Outside the fault state an event has its own effect. -/
theorem hostEvent_live {s : State} (h : s.fault = false) (e : HostEvent) : hostEvent e s = liveEvent e s := by
  simp [hostEvent, h]

/-- In the fault state an event has the effect R183 leaves it. -/
theorem hostEvent_faulted {s : State} (h : s.fault = true) (e : HostEvent) : hostEvent e s = faultedEvent e s := by
  simp [hostEvent, h]

/-- A fetch inside the range gives the word at PC and moves PC past it. -/
theorem fetch_inRange {s : State} (h : s.canFetch) : fetch s = .ok (s.wordAt s.pc.toNat, s.advancePc) := by
  have h1 : ¬s.pc.toNat < 512 := by omega
  have h2 : ¬4096 ≤ s.pc.toNat + 1 := by omega
  simp [fetch, h1, h2, State.wordAt, Config.progBase, Config.memSize]

/-- A fetch outside the range gives a fault, whatever memory holds. -/
theorem fetch_outOfRange {s : State} (h : ¬s.canFetch) :
    fetch s = .error (if s.pc.toNat < 512 then .reservedFetch else .fetchAddrRange) := by
  by_cases h1 : s.pc.toNat < 512
  · simp [fetch, h1, Config.progBase]
  · have h2 : 4096 ≤ s.pc.toNat + 1 := by
      simp only [State.canFetch, not_and, not_le] at h
      omega
    simp [fetch, h1, h2, Config.progBase, Config.memSize]

/-- A `Tick` inside the range executes the word at PC with PC past it and `r` handed over. -/
theorem tick_inRange {s : State} (h : s.canFetch) (r : Byte) :
    tick r s = executeWord (s.wordAt s.pc.toNat) (s.withRnd r).advancePc := by
  have hf : fetch (s.withRnd r) = .ok (s.wordAt s.pc.toNat, (s.withRnd r).advancePc) := fetch_inRange (s := s.withRnd r) h
  simp only [tick, hf]

/-- A `Tick` outside the range faults. -/
theorem tick_outOfRange {s : State} (h : ¬s.canFetch) (r : Byte) :
    tick r s = .next
      (enterFault (if s.pc.toNat < 512 then .reservedFetch else .fetchAddrRange) (s.withRnd r)) := by
  have hf : fetch (s.withRnd r) = .error (if s.pc.toNat < 512 then .reservedFetch else .fetchAddrRange) :=
    fetch_outOfRange (s := s.withRnd r) h
  simp only [tick, hf, raise_eq]

/-- A word that decodes is executed by its instruction. -/
theorem executeWord_decoded {w : Word} {i : Instr} (h : decodeWord w = .ok i) (s : State) :
    executeWord w s = exec i s := by
  simp only [executeWord, h]

/-- A word that does not decode stalls. -/
theorem executeWord_rejected {w : Word} {e : Reject} (h : decodeWord w = .error e) (s : State) :
    executeWord w s = .next (s.rewind.emit (.diag w)) := by
  simp only [executeWord, h, stall]

/-! ### The next event, for each shape of the plan -/

theorem nextEvent_scheduled {s : State} {e : HostEvent} {rest : List HostEvent} (h : s.env.schedule = e :: rest) :
    nextEvent s = (e, s.withSchedule rest) := by
  simp only [nextEvent, h]

theorem nextEvent_given {s : State} {e : HostEvent} {ps : List PlannedEvent} (h : s.env.schedule = [])
    (hp : s.env.recurring = .given e :: ps) : nextEvent s = (e, s.withRecurring (ps ++ [.given e])) := by
  simp only [nextEvent, h, hp, plannedEvent]

theorem nextEvent_tickAnyByte {s : State} {ps : List PlannedEvent} (h : s.env.schedule = [])
    (hp : s.env.recurring = .tickAnyByte :: ps) :
    nextEvent s = (.tick (Config.randomByte s.env.draws), (s.withRecurring (ps ++ [.tickAnyByte])).countDraw) := by
  simp only [nextEvent, h, hp, plannedEvent]
  rfl

theorem nextEvent_free {s : State} (h : s.env.schedule = []) (hp : s.env.recurring = []) :
    nextEvent s = (Config.hostChoice s.env.draws, s.countDraw) := by
  simp only [nextEvent, h, hp]

/-- Taking the next event from the plan leaves the core, the font and the outputs as they are. -/
theorem nextEvent_keeps (s : State) : SameCore s (nextEvent s).2 ∧ (nextEvent s).2.env.font = s.env.font ∧
    (nextEvent s).2.env.outbox = s.env.outbox := by
  unfold nextEvent
  split
  · exact ⟨rfl, rfl, rfl⟩
  · split
    · rename_i p ps _
      cases p <;> exact ⟨rfl, rfl, rfl⟩
    · exact ⟨rfl, rfl, rfl⟩

end Sys2Proof.Machine
end

