-- ==== Sys2Proof/Laws/Exec.lean ====
section
/-! SUPPORT. What an instruction that can fault has done when it answers a state outside the fault state, and the same for
a `Tick`: the inversion lemmas that proofs cite instead of unfolding the meanings. Also runs: one event or one step further,
and the ticks that leave the core as it is. -/

namespace Sys2Proof.Machine

/-! ### Stack -/

/-- return, outside the fault state: an entry was there, it is the new PC. -/
theorem execRet_next {s t : State} (h : exec .ret s = .next t) (hf : t.fault = false) :
    ∃ _ : s.sp.val ≠ 0, t = ({ s with sp := ⟨s.sp.val - 1, by omega⟩ } : State).jumpTo (s.stack[s.sp.val - 1]'(by omega)) := by
  by_cases h0 : s.sp.val = 0
  · simp only [exec, execRet, pop_empty h0] at h
    cases h
    cases hf
  · simp only [exec, execRet, pop_live h0] at h
    cases h
    exact ⟨h0, rfl⟩

/-- call, outside the fault state: there was room, PC was pushed. -/
theorem execCall_next {s t : State} {nnn : Addr12} (h : exec (.call nnn) s = .next t) (hf : t.fault = false) :
    ∃ hr : s.sp.val < 16,
      t = ({ s with stack := s.stack.set s.sp.val s.pc hr, sp := ⟨s.sp.val + 1, by omega⟩ } : State).jumpTo (zext16 nnn) := by
  by_cases h0 : s.sp.val < 16
  · simp only [exec, execCall, push_room h0] at h
    cases h
    exact ⟨h0, rfl⟩
  · simp only [exec, execCall, push_full (by omega : s.sp.val = 16)] at h
    cases h
    cases hf

/-! ### Memory -/

/-- An operation that may fault, outside the fault state: it gave that state. -/
theorem orRaise_next {s t : State} {e : Except Fault State} (h : orRaise s e = .next t) (hf : t.fault = false) :
    e = .ok t := by
  cases e with
  | ok u => cases h; rfl
  | error c => cases h; cases hf

/-- bcd-store and reg-dump, outside the fault state: the bytes are stored and nothing else is changed. -/
theorem storeBytes_next {s t : State} {a : Nat} {bs : List Byte} (h : orRaise s (storeBytes s a bs) = .next t)
    (hf : t.fault = false) :
    t = { s with mem := Memory.writeBytes s.env.font s.mem a bs } ∧ (bs = [] ∨ a + bs.length ≤ Config.memSize) := by
  have hn := orRaise_next h hf
  rw [storeBytes_eq] at hn
  split at hn
  · rename_i hb
    cases hn
    exact ⟨rfl, hb⟩
  · cases hn

/-- reg-load, outside the fault state: the bytes at `I, I + 1, ...` are in the registers. -/
theorem execRegLoad_next {s t : State} {x : Reg} (h : exec (.regLoad x) s = .next t) (hf : t.fault = false) :
    s.base + (x.val + 1) ≤ Config.memSize ∧
      t = { s with v := loadRegs s.v 0 ((List.range' s.base (x.val + 1)).map s.readMem) } := by
  by_cases hr : x.val + 1 = 0 ∨ s.base + (x.val + 1) ≤ Config.memSize
  · simp only [exec, execRegLoad, loadBytes_eq, if_pos hr] at h
    cases h
    exact ⟨by omega, rfl⟩
  · simp only [exec, execRegLoad, loadBytes_eq, if_neg hr] at h
    cases h
    cases hf

/-- What reg-load's registers hold. -/
theorem reg_loaded (s : State) (f : Nat → Byte) (a n : Nat) (j : Reg) :
    ({ s with v := loadRegs s.v 0 ((List.range' a n).map f) } : State).reg j =
      if j.val < n then f (a + j.val) else s.reg j := by
  simp only [State.reg, Fin.getElem_fin, getElem_loadRegs]
  by_cases h : j.val < n
  · rw [dif_pos (by simp; omega), if_pos h]
    simp
  · rw [dif_neg (by simp; omega), if_neg h]

/-! ### Display -/

/-- draw out of range faults. -/
theorem execDraw_outOfRange {s : State} {n : Nat} (x y : Reg) (h : ¬(n = 0 ∨ s.base + n ≤ Config.memSize)) :
    exec (.draw x y n) s = .next (enterFault .dataAddrRange s) := by
  simp only [exec, execDraw, loadBytes_eq, if_neg h]
  rfl

/-- draw in range paints the cells of its sprite. -/
theorem execDraw_inRange {s : State} {n : Nat} (x y : Reg) (h : n = 0 ∨ s.base + n ≤ Config.memSize) :
    exec (.draw x y n) s =
      .next (s.painted (spriteCells (s.reg x) (s.reg y) 0 ((List.range' s.base n).map s.readMem))) := by
  simp only [exec, execDraw, loadBytes_eq, if_pos h]

/-- A sprite of at most 32 rows reaches no cell twice. -/
theorem nodup_spriteCells (vx vy : Byte) (bs : List Byte) (row : Nat) (h : bs.length ≤ 32) :
    (spriteCells vx vy row bs).Nodup := by
  induction bs generalizing row with
  | nil => simp [spriteCells]
  | cons b bs ih =>
    simp only [List.length_cons] at h
    rw [spriteCells, List.nodup_append]
    refine ⟨?_, ih _ (by omega), ?_⟩
    · unfold rowCells
      refine List.Nodup.map_on ?_ (List.Nodup.filter _ (by decide))
      intro c hc d hd heq
      have h8 : ∀ col ∈ spriteColumns, col < 8 := by decide
      exact (spriteCell_inj (by omega) (by omega) (h8 _ (List.mem_filter.1 hc).1) (h8 _ (List.mem_filter.1 hd).1) heq).2
    · intro c hc d hd heq
      obtain ⟨col, h1, h2, rfl⟩ := (mem_rowCells ..).1 hc
      obtain ⟨k, hk, col', h3, h4, rfl⟩ := (mem_spriteCells ..).1 hd
      have := (spriteCell_inj (by omega) (by omega) h1 h3 heq).1
      omega

/-- The cells draw paints are those its sprite covers. -/
theorem mem_drawCells (s : State) (x y : Reg) (n : Nat) (k : Fin 2048) :
    k ∈ spriteCells (s.reg x) (s.reg y) 0 ((List.range' s.base n).map s.readMem) ↔ SpriteCovers s x y n k := by
  rw [mem_spriteCells]
  constructor
  · rintro ⟨r, hr, col, h1, h2, rfl⟩
    exact ⟨r, by simpa using hr, col, h1, by simpa using h2, by simp [spriteCell, getIndex]⟩
  · rintro ⟨r, hr, col, h1, h2, h3⟩
    exact ⟨r, by simpa using hr, col, h1, by simpa using h2, Fin.ext (by simp [spriteCell, getIndex, h3])⟩

/-! ### Keys -/

/-- A key instruction, outside the fault state: the index was in range. -/
theorem withKey_next {s t : State} {x : Reg} {f : Bool → State} (h : orRaise s (withKey s x f) = .next t)
    (hf : t.fault = false) : ∃ hk : (s.reg x).toNat < 16, t = f (s.keyFlag ⟨(s.reg x).toNat, hk⟩) := by
  have hn := orRaise_next h hf
  by_cases hl : (s.reg x).toNat < 16
  · rw [withKey_inRange hl] at hn
    cases hn
    exact ⟨hl, rfl⟩
  · rw [withKey_outOfRange hl] at hn
    cases hn

/-! ### Events -/

/-- Only `Reset` leaves the fault state. -/
theorem hostEvent_leavesFault {s t : State} {e : HostEvent} (hs : s.fault = true) (h : hostEvent e s = .next t)
    (hf : t.fault = false) : e = .reset := by
  rw [hostEvent_faulted hs] at h
  cases e with
  | reset => rfl
  | readDisplay => cases h; simp [hs] at hf
  | load _ => cases h; simp [hs] at hf
  | setKey _ _ => cases h; simp [hs] at hf
  | tick _ => cases h; simp [hs] at hf
  | tickTimers => cases h; simp [hs] at hf

/-- A `Tick` that ends outside the fault state: it fetched, and ran the decoded instruction or stalled. -/
theorem tick_next {s t : State} {r : Byte} (hs : s.fault = false) (h : hostEvent (.tick r) s = .next t)
    (hf : t.fault = false) :
    s.canFetch ∧ ((∃ i, decodeWord (s.wordAt s.pc.toNat) = .ok i ∧ exec i (s.withRnd r).advancePc = .next t) ∨
      ((∃ e, decodeWord (s.wordAt s.pc.toNat) = .error e) ∧
        t = (s.withRnd r).advancePc.rewind.emit (.diag (s.wordAt s.pc.toNat)))) := by
  rw [hostEvent_live hs, liveEvent] at h
  by_cases hc : s.canFetch
  · refine ⟨hc, ?_⟩
    rw [tick_inRange hc] at h
    cases hd : decodeWord (s.wordAt s.pc.toNat) with
    | ok i =>
      rw [executeWord_decoded hd] at h
      exact .inl ⟨i, rfl, h⟩
    | error e =>
      rw [executeWord_rejected hd] at h
      cases h
      exact .inr ⟨⟨e, rfl⟩, rfl⟩
  · rw [tick_outOfRange hc r] at h
    cases h
    cases hf

/-- Events one after the other, in two parts. -/
theorem runEvents_append {es es' : List HostEvent} {s t : State} (h : runEvents es s = .next t) :
    runEvents (es ++ es') s = runEvents es' t := by
  induction es generalizing s with
  | nil => cases h; rfl
  | cons e es ih =>
    simp only [runEvents] at h
    simp only [List.cons_append, runEvents]
    cases hh : hostEvent e s <;> rw [hh] at h
    · exact ih h
    · cases h
    · cases h

/-- An infinite schedule, one event further. -/
theorem runSchedule_succ {schedule : Nat → HostEvent} {n : Nat} {s t : State} (h : runSchedule schedule n s = .next t) :
    runSchedule schedule (n + 1) s = hostEvent (schedule n) t := by
  simp only [runSchedule, List.range_succ, List.map_append, List.map_cons, List.map_nil]
  rw [runEvents_append h]
  simp only [runEvents]
  cases hostEvent (schedule n) t <;> rfl

/-- One step more. -/
theorem runSteps_succ {n : Nat} {s t : State} (h : runSteps n s = .next t) : runSteps (n + 1) s = step t := by
  induction n generalizing s with
  | zero =>
    cases h
    simp only [runSteps]
    cases step t <;> rfl
  | succ n ih =>
    rw [runSteps] at h ⊢
    cases hs : step s with
    | next u => rw [hs] at h; exact ih h
    | fault f => rw [hs] at h; cases h
    | refused r => rw [hs] at h; cases h

/-- If each `Tick` from a state with `P` leaves the core as it is, emits `out` and keeps `P`, so does any number of them. -/
theorem ticks_keepCore (P : State → Prop) (out : List HostOutput)
    (hstep : ∀ s, P s → ∀ r, ∃ t, hostEvent (.tick r) s = .next t ∧ SameCore s t ∧
      t.env.outbox = out ++ s.env.outbox ∧ P t) (rs : List Byte) (s : State) (h : P s) :
    ∃ t, runEvents (rs.map HostEvent.tick) s = .next t ∧ SameCore s t ∧
      t.env.outbox = (List.replicate rs.length out).flatten ++ s.env.outbox ∧ P t := by
  induction rs generalizing s with
  | nil => exact ⟨s, rfl, rfl, rfl, h⟩
  | cons r rs ih =>
    obtain ⟨t, h1, h2, h3, h4⟩ := hstep s h r
    obtain ⟨u, h5, h6, h7, h8⟩ := ih t h4
    have hrep : ∀ n, (List.replicate n out).flatten ++ out = out ++ (List.replicate n out).flatten := by
      intro n
      induction n with
      | zero => simp
      | succ n ihn => simp [List.replicate_succ, ihn]
    refine ⟨u, by simp only [List.map_cons, runEvents, h1, h5], sameCore_trans h2 h6, ?_, h8⟩
    simp [h7, h3, List.replicate_succ, ← List.append_assoc, hrep]

end Sys2Proof.Machine
end

