-- ==== Sys2Proof/Laws/PerInstr.lean ====
section
/-! SUPPORT. What holds of every instruction as syntax, one lemma per constructor. The family EncodeInRow: the word the
encoder writes lies in the instruction's own row of the opcode map (30_encoding.md R64: `w & mask = match`). -/

namespace Sys2Proof.Laws.EncodeInRow

/-- The instruction's word matches its row of R64. -/
def Statement (i : Instr) : Prop := i.row.matches (encode i) = true

/-- A word of layout NNN under the mask `F000`. -/
theorem nnn_F000 (op : BitVec 4) (nnn : Addr12) : wordNNN op nnn &&& (0xF000 : Word) = wordXYN op 0 0 0 := by
  rw [and_F000, fieldOp_wordNNN]

/-- A word of layout XNN under the mask `F000`. -/
theorem xnn_F000 (op : BitVec 4) (x : Reg) (nn : Byte) : wordXNN op x nn &&& (0xF000 : Word) = wordXYN op 0 0 0 := by
  rw [and_F000, fieldOp_wordXNN]

/-- A word of layout XYN under the mask `F000`. -/
theorem xyn_F000 (op : BitVec 4) (x y : Reg) (n : BitVec 4) :
    wordXYN op x y n &&& (0xF000 : Word) = wordXYN op 0 0 0 := by
  rw [and_F000, fieldOp_wordXYN]

/-- A word of layout XYN under the mask `F00F`. -/
theorem xyn_F00F (op : BitVec 4) (x y : Reg) (n : BitVec 4) :
    wordXYN op x y n &&& (0xF00F : Word) = wordXYN op 0 0 n := by
  rw [and_F00F, fieldOp_wordXYN, fieldN_wordXYN]

/-- A word of layout XNN under the mask `F0FF`. -/
theorem xnn_F0FF (op : BitVec 4) (x : Reg) (nn : Byte) : wordXNN op x nn &&& (0xF0FF : Word) = wordXNN op 0 nn := by
  rw [and_F0FF, fieldOp_wordXNN, fieldNN_wordXNN]

theorem clearScreen : Statement .clearScreen := rfl
theorem ret : Statement .ret := rfl
theorem jump (nnn : Addr12) : Statement (.jump nnn) := beq_iff_eq.2 ((Sys2Proof.Laws.EncodeInRow.nnn_F000 ..).trans rfl)
theorem call (nnn : Addr12) : Statement (.call nnn) := beq_iff_eq.2 ((Sys2Proof.Laws.EncodeInRow.nnn_F000 ..).trans rfl)
theorem skipEqImm (x : Reg) (nn : Byte) : Statement (.skipEqImm x nn) := beq_iff_eq.2 ((Sys2Proof.Laws.EncodeInRow.xnn_F000 ..).trans rfl)
theorem skipNeqImm (x : Reg) (nn : Byte) : Statement (.skipNeqImm x nn) := beq_iff_eq.2 ((Sys2Proof.Laws.EncodeInRow.xnn_F000 ..).trans rfl)
theorem skipEqReg (x : Reg) (y : Reg) : Statement (.skipEqReg x y) := beq_iff_eq.2 ((Sys2Proof.Laws.EncodeInRow.xyn_F00F ..).trans rfl)
theorem setImm (x : Reg) (nn : Byte) : Statement (.setImm x nn) := beq_iff_eq.2 ((Sys2Proof.Laws.EncodeInRow.xnn_F000 ..).trans rfl)
theorem addImm (x : Reg) (nn : Byte) : Statement (.addImm x nn) := beq_iff_eq.2 ((Sys2Proof.Laws.EncodeInRow.xnn_F000 ..).trans rfl)
theorem setReg (x : Reg) (y : Reg) : Statement (.setReg x y) := beq_iff_eq.2 ((Sys2Proof.Laws.EncodeInRow.xyn_F00F ..).trans rfl)
theorem orReg (x : Reg) (y : Reg) : Statement (.orReg x y) := beq_iff_eq.2 ((Sys2Proof.Laws.EncodeInRow.xyn_F00F ..).trans rfl)
theorem andReg (x : Reg) (y : Reg) : Statement (.andReg x y) := beq_iff_eq.2 ((Sys2Proof.Laws.EncodeInRow.xyn_F00F ..).trans rfl)
theorem xorReg (x : Reg) (y : Reg) : Statement (.xorReg x y) := beq_iff_eq.2 ((Sys2Proof.Laws.EncodeInRow.xyn_F00F ..).trans rfl)
theorem addReg (x : Reg) (y : Reg) : Statement (.addReg x y) := beq_iff_eq.2 ((Sys2Proof.Laws.EncodeInRow.xyn_F00F ..).trans rfl)
theorem subReg (x : Reg) (y : Reg) : Statement (.subReg x y) := beq_iff_eq.2 ((Sys2Proof.Laws.EncodeInRow.xyn_F00F ..).trans rfl)
theorem shr (x : Reg) : Statement (.shr x) := beq_iff_eq.2 ((Sys2Proof.Laws.EncodeInRow.xyn_F00F ..).trans rfl)
theorem subnReg (x : Reg) (y : Reg) : Statement (.subnReg x y) := beq_iff_eq.2 ((Sys2Proof.Laws.EncodeInRow.xyn_F00F ..).trans rfl)
theorem shl (x : Reg) : Statement (.shl x) := beq_iff_eq.2 ((Sys2Proof.Laws.EncodeInRow.xyn_F00F ..).trans rfl)
theorem skipNeqReg (x : Reg) (y : Reg) : Statement (.skipNeqReg x y) := beq_iff_eq.2 ((Sys2Proof.Laws.EncodeInRow.xyn_F00F ..).trans rfl)
theorem setIndex (nnn : Addr12) : Statement (.setIndex nnn) := beq_iff_eq.2 ((Sys2Proof.Laws.EncodeInRow.nnn_F000 ..).trans rfl)
theorem jumpOffset (nnn : Addr12) : Statement (.jumpOffset nnn) := beq_iff_eq.2 ((Sys2Proof.Laws.EncodeInRow.nnn_F000 ..).trans rfl)
theorem random (x : Reg) (nn : Byte) : Statement (.random x nn) := beq_iff_eq.2 ((Sys2Proof.Laws.EncodeInRow.xnn_F000 ..).trans rfl)
theorem draw (x : Reg) (y : Reg) (n : Nat) : Statement (.draw x y n) := beq_iff_eq.2 ((Sys2Proof.Laws.EncodeInRow.xyn_F000 ..).trans rfl)
theorem skipKeyPressed (x : Reg) : Statement (.skipKeyPressed x) := beq_iff_eq.2 ((Sys2Proof.Laws.EncodeInRow.xnn_F0FF ..).trans rfl)
theorem skipKeyNotPressed (x : Reg) : Statement (.skipKeyNotPressed x) := beq_iff_eq.2 ((Sys2Proof.Laws.EncodeInRow.xnn_F0FF ..).trans rfl)
theorem getDelay (x : Reg) : Statement (.getDelay x) := beq_iff_eq.2 ((Sys2Proof.Laws.EncodeInRow.xnn_F0FF ..).trans rfl)
theorem waitKey (x : Reg) : Statement (.waitKey x) := beq_iff_eq.2 ((Sys2Proof.Laws.EncodeInRow.xnn_F0FF ..).trans rfl)
theorem setDelay (x : Reg) : Statement (.setDelay x) := beq_iff_eq.2 ((Sys2Proof.Laws.EncodeInRow.xnn_F0FF ..).trans rfl)
theorem setSound (x : Reg) : Statement (.setSound x) := beq_iff_eq.2 ((Sys2Proof.Laws.EncodeInRow.xnn_F0FF ..).trans rfl)
theorem addToIndex (x : Reg) : Statement (.addToIndex x) := beq_iff_eq.2 ((Sys2Proof.Laws.EncodeInRow.xnn_F0FF ..).trans rfl)
theorem fontCharAddr (x : Reg) : Statement (.fontCharAddr x) := beq_iff_eq.2 ((Sys2Proof.Laws.EncodeInRow.xnn_F0FF ..).trans rfl)
theorem bcdStore (x : Reg) : Statement (.bcdStore x) := beq_iff_eq.2 ((Sys2Proof.Laws.EncodeInRow.xnn_F0FF ..).trans rfl)
theorem regDump (x : Reg) : Statement (.regDump x) := beq_iff_eq.2 ((Sys2Proof.Laws.EncodeInRow.xnn_F0FF ..).trans rfl)
theorem regLoad (x : Reg) : Statement (.regLoad x) := beq_iff_eq.2 ((Sys2Proof.Laws.EncodeInRow.xnn_F0FF ..).trans rfl)

end Sys2Proof.Laws.EncodeInRow
end

