-- ==== Sys2Proof/Tests/Slice0.lean ====
section
/-! SUPPORT. Tests of the model on the spec's own vectors (95_test_vectors.md), and for every statement with hypotheses a
witness that meets them. Expected values are those of the spec's tables or the words written out from 30_encoding.md
R61 to R64, never the model's answers. -/

namespace Sys2Proof.Tests

open Sys2Proof.Machine

/-! ### Helpers -/

/-- The reset state with an instruction word at `0x200`. -/
def onWord (w : Nat) : State := State.reset.withFetchWord 16 w

/-- The state with registers set. -/
def withRegs (s : State) (rs : List (Reg × Byte)) : State := rs.foldl (fun t r => t.setReg r.1 r.2) s

/-- The state with bytes stored from an address up. -/
def withBytes (s : State) (a : Nat) (bs : List Byte) : State :=
  { s with mem := Memory.writeBytes s.env.font s.mem a bs }

/-- The state with stack entries in use, the first one lowest. -/
def withStack (s : State) (sp : Fin 17) (entry : Word) : State := { s with sp := sp, stack := Vector.replicate 16 entry }

/-- The state with lit cells. -/
def withCells (s : State) (cells : List (Fin 2048)) : State := { s with fb := cells.foldl setCell s.fb }

/-- A result is a next state of which a test holds. -/
def answers (r : Result) (f : State → Bool) : Bool :=
  match r with
  | .next t => f t
  | .fault _ => false
  | .refused _ => false

/-- A result is the fault state with this cause number. -/
def faults (r : Result) (code : Nat) : Bool := answers r fun t => t.fault && t.causeCode == code

/-- The cells lit in a state are exactly these. -/
def litExactly (t : State) (cells : List (Fin 2048)) : Bool := t.fb == cells.foldl setCell clearCells

/-! ### WellFormed: the one check, on draw's row count (R63) -/

theorem test_wellFormed_refuses_sixteen_rows : WellFormed (.draw 0 0 16) = false := by decide
theorem test_wellFormed_accepts_fifteen_rows : WellFormed (.draw 0 0 15) = true := by decide

/-! ### Decoding: every row of R64, its word written out from the fields of R61 -/

theorem test_decode_control :
    decodeWord 0b0000000011101110 = .ok .ret ∧ decodeWord 0b0001101010111100 = .ok (.jump 0xABC) ∧
    decodeWord 0b0010101010111100 = .ok (.call 0xABC) ∧ decodeWord 0b0011000110100101 = .ok (.skipEqImm 1 0xA5) ∧
    decodeWord 0b0100000110100101 = .ok (.skipNeqImm 1 0xA5) ∧ decodeWord 0b0101000100100000 = .ok (.skipEqReg 1 2) ∧
    decodeWord 0b1001000100100000 = .ok (.skipNeqReg 1 2) ∧ decodeWord 0b1011101010111100 = .ok (.jumpOffset 0xABC) := by
  decide

theorem test_decode_alu_immediate :
    decodeWord 0b0110101000000101 = .ok (.setImm 0xA 5) ∧ decodeWord 0b0111101000000101 = .ok (.addImm 0xA 5) ∧
    decodeWord 0b1100101000000101 = .ok (.random 0xA 5) := by decide

theorem test_decode_alu_registers :
    decodeWord 0b1000000111110000 = .ok (.setReg 1 0xF) ∧ decodeWord 0b1000000111110001 = .ok (.orReg 1 0xF) ∧
    decodeWord 0b1000000111110010 = .ok (.andReg 1 0xF) ∧ decodeWord 0b1000000111110011 = .ok (.xorReg 1 0xF) ∧
    decodeWord 0b1000000111110100 = .ok (.addReg 1 0xF) ∧ decodeWord 0b1000000111110101 = .ok (.subReg 1 0xF) ∧
    decodeWord 0b1000000111110110 = .ok (.shr 1) ∧ decodeWord 0b1000000111110111 = .ok (.subnReg 1 0xF) ∧
    decodeWord 0b1000000111111110 = .ok (.shl 1) := by decide

theorem test_decode_index_memory :
    decodeWord 0b1010001100000000 = .ok (.setIndex 0x300) ∧ decodeWord 0b1111001000011110 = .ok (.addToIndex 2) ∧
    decodeWord 0b1111000100101001 = .ok (.fontCharAddr 1) ∧ decodeWord 0b1111001000110011 = .ok (.bcdStore 2) ∧
    decodeWord 0b1111001001010101 = .ok (.regDump 2) ∧ decodeWord 0b1111001001100101 = .ok (.regLoad 2) := by decide

theorem test_decode_display :
    decodeWord 0b0000000011100000 = .ok .clearScreen ∧ decodeWord 0b1101000100101111 = .ok (.draw 1 2 15) := by decide

theorem test_decode_keys_timers :
    decodeWord 0b1110001110011110 = .ok (.skipKeyPressed 3) ∧ decodeWord 0b1110001110100001 = .ok (.skipKeyNotPressed 3) ∧
    decodeWord 0b1111001100000111 = .ok (.getDelay 3) ∧ decodeWord 0b1111001100001010 = .ok (.waitKey 3) ∧
    decodeWord 0b1111001100010101 = .ok (.setDelay 3) ∧ decodeWord 0b1111001100011000 = .ok (.setSound 3) := by decide

/-- The nearest neighbours of accepted words are unrecognized (95_test_vectors.md, part 2). -/
theorem test_decode_refuses_neighbours :
    decodeWord 0x00E1 = .error (.unrecognized 0x00E1) ∧ decodeWord 0x5011 = .error (.unrecognized 0x5011) ∧
    decodeWord 0x8018 = .error (.unrecognized 0x8018) ∧ decodeWord 0x9001 = .error (.unrecognized 0x9001) ∧
    decodeWord 0xE09F = .error (.unrecognized 0xE09F) ∧ decodeWord 0xF066 = .error (.unrecognized 0xF066) := by decide

theorem test_decode_bytes_big_endian :
    decodeBytes [0x6A, 0x05, 0x8A] = .ok (.setImm 0xA 5, [0x8A]) ∧ decodeBytes [0x6A] = .error .truncated := by decide

theorem test_decode_table_word :
    decodeTableWord 16 0x8AB4 = some (.addReg 0xA 0xB) ∧ decodeTableWord 16 0x0000 = none := by decide

theorem test_encode_words :
    encode (.draw 0 1 2) = 0xD012 ∧ encode (.addReg 0xA 0xB) = 0x8AB4 ∧ encode (.shl 3) = 0x830E ∧
    encodeBytes (.setIndex 0x300) = [0xA3, 0x00] := by decide

/-! ### Control flow (95_test_vectors.md, part 2) -/

theorem test_jump : answers (step (onWord 0x1FFF)) (fun t => t.pc == 0xFFF) = true := by decide
theorem test_call_last_entry :
    answers (step (withStack (onWord 0x2300) 15 0)) (fun t => t.stack[15] == 0x202 && t.sp.val == 16 && t.pc == 0x300) =
      true := by decide
theorem test_call_overflow : faults (step (withStack (onWord 0x2300) 16 0)) 1 = true := by decide
theorem test_return :
    answers (step (withStack (onWord 0x00EE) 1 0x206)) (fun t => t.sp.val == 0 && t.pc == 0x206 && t.stack[0] == 0x206) =
      true := by decide
theorem test_return_empty : faults (step (onWord 0x00EE)) 2 = true := by decide
theorem test_skip_eq_imm :
    answers (step (onWord 0x3000)) (fun t => t.pc == 0x204) && answers (step (onWord 0x3001)) (fun t => t.pc == 0x202) =
      true := by decide
theorem test_skip_neq_imm :
    answers (step (onWord 0x4000)) (fun t => t.pc == 0x202) && answers (step (onWord 0x4001)) (fun t => t.pc == 0x204) =
      true := by decide
theorem test_skip_eq_reg :
    answers (step (withRegs (onWord 0x5010) [(0, 7), (1, 7)])) (fun t => t.pc == 0x204) &&
      answers (step (withRegs (onWord 0x5010) [(0, 7), (1, 8)])) (fun t => t.pc == 0x202) = true := by decide
theorem test_skip_neq_reg :
    answers (step (withRegs (onWord 0x9010) [(0, 7), (1, 8)])) (fun t => t.pc == 0x204) &&
      answers (step (withRegs (onWord 0x9010) [(0, 7), (1, 7)])) (fun t => t.pc == 0x202) = true := by decide
theorem test_jump_offset :
    answers (step (withRegs (onWord 0xBFFF) [(0, 0xFF)])) (fun t => t.pc == 0x10FE && t.reg vf == 0) = true := by decide

/-! ### Fetch -/

theorem test_fetch_last_pair :
    answers (step { State.reset with pc := 0xFFE }) (fun t => t.pc == 0xFFE && t.env.outbox == [.diag 0x0000]) = true := by
  decide
theorem test_fetch_out_of_range :
    faults (step { State.reset with pc := 0xFFF }) 3 && faults (step { State.reset with pc := 0x1FF }) 7 = true := by decide
theorem test_fetch_odd :
    answers (step { withBytes State.reset 0x201 [0x60, 0x07] with pc := 0x201 }) (fun t => t.reg 0 == 7 && t.pc == 0x203) =
      true := by decide

/-! ### Arithmetic and logic -/

theorem test_set_imm : answers (step (onWord 0x6A05)) (fun t => t.reg 10 == 5 && t.pc == 0x202) = true := by decide
theorem test_add_imm_is_eight_bits : answers (step (withRegs (onWord 0x70FF) [(0, 5)])) (fun t => t.reg 0 == 4) = true := by
  decide
theorem test_add_imm_no_flag :
    answers (step (withRegs (onWord 0x7001) [(0, 0xFF)])) (fun t => t.reg 0 == 0 && t.reg vf == 0) = true := by decide
theorem test_set_reg : answers (step (withRegs (onWord 0x8010) [(1, 0x7C)])) (fun t => t.reg 0 == 0x7C) = true := by decide
theorem test_or :
    answers (step (withRegs (onWord 0x8011) [(0, 0x0F), (1, 0xF0), (15, 7)])) (fun t => t.reg 0 == 0xFF && t.reg vf == 7) =
      true := by decide
theorem test_and :
    answers (step (withRegs (onWord 0x8012) [(0, 0x3C), (1, 0x0F), (15, 7)])) (fun t => t.reg 0 == 0x0C && t.reg vf == 7) =
      true := by decide
theorem test_xor :
    answers (step (withRegs (onWord 0x8013) [(0, 0xFF), (1, 0x0F), (15, 7)])) (fun t => t.reg 0 == 0xF0 && t.reg vf == 7) =
      true := by decide
theorem test_add_reg_carry :
    answers (step (withRegs (onWord 0x8014) [(0, 0xFF), (1, 0xFF)])) (fun t => t.reg 0 == 0xFE && t.reg vf == 1) =
      true := by decide
theorem test_add_reg_into_vf :
    answers (step (withRegs (onWord 0x8F14) [(15, 0xF0), (1, 0x20)])) (fun t => t.reg vf == 1) = true := by decide
theorem test_sub_reg_borrow :
    answers (step (withRegs (onWord 0x8015) [(0, 0x10), (1, 0x20), (15, 1)])) (fun t => t.reg 0 == 0xF0 && t.reg vf == 0) =
      true := by decide
theorem test_sub_reg_equal :
    answers (step (withRegs (onWord 0x8015) [(0, 0x20), (1, 0x20)])) (fun t => t.reg 0 == 0 && t.reg vf == 1) = true := by
  decide
theorem test_subn_reg :
    answers (step (withRegs (onWord 0x8017) [(0, 0x20), (1, 0x10), (15, 1)])) (fun t => t.reg 0 == 0xF0 && t.reg vf == 0) =
      true := by decide
theorem test_shr :
    answers (step (withRegs (onWord 0x8016) [(0, 5), (1, 0xAA)])) (fun t => t.reg 0 == 2 && t.reg vf == 1 && t.reg 1 == 0xAA) =
      true := by decide
theorem test_shr_into_vf : answers (step (withRegs (onWord 0x8F06) [(15, 2)])) (fun t => t.reg vf == 0) = true := by decide
theorem test_shl_high_nibble :
    answers (step (withRegs (onWord 0x800E) [(0, 0x1F)])) (fun t => t.reg 0 == 0x3E && t.reg vf == 0x10) = true := by decide
theorem test_shl_into_vf : answers (step (withRegs (onWord 0x8F0E) [(15, 0x81)])) (fun t => t.reg vf == 0x80) = true := by
  decide
theorem test_random :
    answers (hostEvent (.tick 0xA7) (onWord 0xC00F)) (fun t => t.reg 0 == 7) = true := by decide

/-! ### Index and memory -/

theorem test_set_index : answers (step (onWord 0xAFFF)) (fun t => t.i == 0x0FFF) = true := by decide
theorem test_add_to_index_wraps :
    answers (step (withRegs { onWord 0xF01E with i := 0xFFFF } [(0, 1)])) (fun t => t.i == 0 && t.reg vf == 0) = true := by
  decide
theorem test_font_char_addr :
    answers (step (withRegs (onWord 0xF129) [(1, 4)])) (fun t => t.i == 20) &&
      answers (step (withRegs (onWord 0xF029) [(0, 0xFF)])) (fun t => t.i == 0x04FB) = true := by decide
theorem test_font_glyph_four :
    (List.range' 20 5).map State.reset.readMem = [0x90, 0x90, 0xF0, 0x10, 0x10] := by decide
theorem test_bcd_store :
    answers (step (withRegs { onWord 0xF033 with i := 0x300 } [(0, 254)]))
      (fun t => (List.range' 0x300 3).map t.readMem == [2, 5, 4]) = true := by decide
theorem test_bcd_store_edge :
    answers (step (withRegs { onWord 0xF033 with i := 0xFFD } [(0, 255)])) (fun t => t.readMem 0xFFF == 5) &&
      faults (step { onWord 0xF033 with i := 0xFFE }) 4 = true := by decide
theorem test_reg_dump :
    answers (step (withRegs { onWord 0xF255 with i := 0x400 } [(0, 1), (1, 2), (2, 3), (3, 9)]))
      (fun t => (List.range' 0x400 4).map t.readMem == [1, 2, 3, 0] && t.i == 0x400) = true := by decide
theorem test_reg_dump_fault : faults (step { onWord 0xF155 with i := 0xFFF }) 4 = true := by decide
theorem test_reg_load :
    answers (step (withRegs (withBytes { onWord 0xF265 with i := 0x300 } 0x300 [2, 5, 4, 0x77]) [(3, 1)]))
      (fun t => t.reg 0 == 2 && t.reg 1 == 5 && t.reg 2 == 4 && t.reg 3 == 1 && t.i == 0x300) = true := by decide
theorem test_reg_load_fault : faults (step { onWord 0xF065 with i := 0x1000 }) 4 = true := by decide

/-! ### Display -/

theorem test_clear_screen :
    answers (step (withRegs (withCells (onWord 0x00E0) [5, 2047]) [(15, 1)])) (fun t => litExactly t [] && t.reg vf == 1) =
      true := by decide
theorem test_draw_collision :
    answers (step (withCells (withBytes { onWord 0xD011 with i := 0x300 } 0x300 [0x80]) [0]))
      (fun t => litExactly t [0] && t.reg vf == 1) = true := by decide
theorem test_draw_wraps :
    answers (step (withRegs (withBytes { onWord 0xD011 with i := 0x300 } 0x300 [0xFF]) [(0, 0xFC), (1, 0x21)]))
      (fun t => litExactly t [124, 125, 126, 127, 64, 65, 66, 67] && t.reg vf == 0) = true := by decide
theorem test_draw_no_rows :
    answers (step (withRegs { onWord 0xD010 with i := 0x1000 } [(15, 1)])) (fun t => t.reg vf == 0 && !t.fault) = true := by
  decide
theorem test_draw_fault : faults (step { onWord 0xD012 with i := 0xFFF }) 4 = true := by decide
theorem test_draw_reads_vf_first :
    answers (step (withRegs (withBytes { onWord 0xDF01 with i := 0x300 } 0x300 [0x80]) [(15, 3), (0, 2)]))
      (fun t => litExactly t [131] && t.reg vf == 0) = true := by decide

/-! ### Keys and timers -/

/-- Key 10 is down. -/
def keyTen (s : State) : State := { s with key := s.key.set 10 true }

theorem test_skip_key_pressed :
    answers (step (withRegs (keyTen (onWord 0xE09E)) [(0, 10)])) (fun t => t.pc == 0x204) &&
      answers (step (withRegs (onWord 0xE09E) [(0, 10)])) (fun t => t.pc == 0x202) = true := by decide
theorem test_skip_key_not_pressed :
    answers (step (withRegs (keyTen (onWord 0xE0A1)) [(0, 10)])) (fun t => t.pc == 0x202) &&
      faults (step (withRegs (onWord 0xE0A1) [(0, 0xFF)])) 6 = true := by decide
theorem test_wait_key_other_key :
    answers (step (withRegs (keyTen (onWord 0xF00A)) [(0, 5)])) (fun t => t.pc == 0x200 && t.env.outbox == []) = true := by
  decide
theorem test_wait_key_down :
    answers (step (withRegs (keyTen (onWord 0xF00A)) [(0, 10)])) (fun t => t.pc == 0x202 && t.reg 0 == 10) = true := by decide
theorem test_get_delay : answers (step { onWord 0xF007 with dt := 0x2A }) (fun t => t.reg 0 == 0x2A && t.dt == 0x2A) = true := by
  decide
theorem test_set_delay : answers (step (withRegs (onWord 0xF015) [(0, 3)])) (fun t => t.dt == 3 && t.st == 0) = true := by
  decide
theorem test_set_sound : answers (step (withRegs (onWord 0xF018) [(0, 0x10)])) (fun t => t.st == 0x10 && t.dt == 0) = true := by
  decide

/-! ### Unrecognized words and host events -/

theorem test_unrecognized :
    answers (step (onWord 0xFFFF)) (fun t => t.pc == 0x200 && t.env.outbox == [.diag 0xFFFF]) = true := by decide
theorem test_tick_timers :
    answers (hostEvent .tickTimers { State.reset with dt := 255, st := 1 }) (fun t => t.dt == 254 && t.st == 0) = true := by
  decide
theorem test_load_running :
    answers (hostEvent (.load [0x12, 0x00]) { State.reset with pc := 0x2F0 })
      (fun t => t.readMem 0x200 == 0x12 && t.readMem 0x201 == 0 && t.pc == 0x2F0) = true := by decide
theorem test_fault_state_ignores_tick :
    answers (hostEvent (.tick 0) { State.reset with fault := true, cause := some .stackUnderflow })
      (fun t => t == { State.reset with fault := true, cause := some .stackUnderflow }) = true := by decide
theorem test_reset_leaves_fault :
    answers (hostEvent .reset { State.reset with fault := true, cause := some .stackUnderflow, pc := 0x333 })
      (fun t => t == State.reset) = true := by decide
theorem test_cause_codes :
    [Fault.stackOverflow, .stackUnderflow, .fetchAddrRange, .dataAddrRange, .loadTooLarge, .keyIndexRange, .reservedFetch].map
      Fault.code = [1, 2, 3, 4, 5, 6, 7] := by decide
/-- A plan comes round: after its `TickTimers` the next step is that event again. -/
theorem test_recurring_plan :
    answers (step ({ State.reset with dt := 5 }.withRecurring [.given .tickTimers, .given (.setKey 1 true)]))
      (fun t => t.dt == 4 && t.env.recurring == [.given (.setKey 1 true), .given .tickTimers]) = true := by decide
theorem test_schedule_order :
    answers (step { State.reset with env := { Env.initial with schedule := [.setKey 15 true, .tickTimers] } })
      (fun t => t.keyFlag 15 && t.env.schedule == [.tickTimers]) = true := by decide

/-! ### Witnesses: for each statement with hypotheses, a state and operands that meet them, clause by clause at the edges

A statement of the form "for all operands and states, exec answers ..." has no hypotheses and needs none. -/

/-- The fault state of cause 2. -/
def faulted : State := { State.reset with fault := true, cause := some .stackUnderflow }

/-- DecodeEncodeRoundTrip. -/
theorem witness_round_trip : WellFormed (.draw 15 15 15) = true ∧ WellFormed .ret = true := by decide

/-- EncodeGivesTheWordBack: an ignored `y` that is not 0, and a word of another row. -/
theorem witness_encode_back : decodeWord 0x8AF6 = .ok (.shr 10) ∧ decodeWord 0x8AFE = .ok (.shl 10) ∧
    decodeWord 0x8AB4 = .ok (.addReg 10 11) := by decide

/-- A reset state with a plan. -/
def planned (es : List HostEvent) (ps : List PlannedEvent) : State := (State.reset.withSchedule es).withRecurring ps

/-- StepPerformsTheNextEvent: the four shapes of the plan. -/
theorem witness_plan :
    (planned [.tickTimers] []).env.schedule = [.tickTimers] ∧
    ((planned [] [.given .tickTimers]).env.schedule = [] ∧
      (planned [] [.given .tickTimers]).env.recurring = [.given .tickTimers]) ∧
    (State.reset.env.schedule = [] ∧ State.reset.env.recurring = [.tickAnyByte]) ∧
    ((planned [] []).env.schedule = [] ∧ (planned [] []).env.recurring = []) := by decide

/-- StepRunsTheDecodedInstruction, FetchFaultsOutsideItsRange (last clause): PC at both ends of the range, and the three
shapes of the plan that give a `Tick`. -/
theorem witness_step_first : (onWord 0x6A05).fault = false ∧ (onWord 0x6A05).canFetch ∧
    decodeWord ((onWord 0x6A05).wordAt (onWord 0x6A05).pc.toNat) = .ok (.setImm 10 5) ∧
    ((onWord 0x6A05).withSchedule [.tick 7]).env.schedule = [.tick 7] ∧
    (((onWord 0x6A05).withSchedule []).withRecurring [.given (.tick 7)]).env.recurring = [.given (.tick 7)] ∧
    ((onWord 0x6A05).withSchedule []).env.recurring = [.tickAnyByte] := by decide
theorem witness_step_last :
    (({ State.reset with pc := 0xFFE } : State).withFetchWord 16 0x3000).canFetch ∧
    (({ State.reset with pc := 0xFFE } : State).withFetchWord 16 0x3000).pc = 0xFFE ∧
    decodeWord ((({ State.reset with pc := 0xFFE } : State).withFetchWord 16 0x3000).wordAt 0xFFE) =
      .ok (.skipEqImm 0 0) := by decide

/-- FetchFaultsOutsideItsRange: the addresses next to the range. -/
theorem witness_fetch_faults :
    ({ State.reset with pc := 0x1FF } : State).pc.toNat < 0x200 ∧ ({ State.reset with pc := 0xFFF } : State).pc.toNat + 1 ≥ 4096 ∧
    State.reset.fault = false := by decide

/-- ReturnPopsIntoPc, CallPushesAndJumps: an empty, a full and an almost full stack. -/
theorem witness_stack : State.reset.sp.val = 0 ∧ (withStack State.reset 1 0x206).sp.val ≠ 0 ∧
    (withStack State.reset 16 0x206).sp.val = 16 ∧ (withStack State.reset 16 0x206).sp.val ≠ 0 ∧
    (withStack State.reset 15 0x206).sp.val < 16 := by decide

/-- BcdStoreWritesDigits: the last I that fits and the first that does not. -/
theorem witness_bcd : ({ State.reset with i := 4093 } : State).i.toNat < 4094 ∧
    ({ State.reset with i := 4094 } : State).i.toNat ≥ 4094 := by decide

/-- RegDumpStoresRegisters, RegLoadFillsRegisters: `x = 15` at the last I that fits and the first that does not. -/
theorem witness_reg_block : ({ State.reset with i := 4080 } : State).i.toNat + (15 : Reg).val < 4096 ∧
    ({ State.reset with i := 4081 } : State).i.toNat + (15 : Reg).val ≥ 4096 ∧ (0 : Reg).val ≤ (15 : Reg).val ∧
    (14 : Reg).val < (15 : Reg).val := by decide

/-- A state with a program text at `0x300` that a dump of V0 and V1 has just rewritten. -/
def dumping : State := withRegs { State.reset with pc := 0x300, i := 0x300 } [(0, 0x60), (1, 0x07)]

/-- DumpThenLoadRestores, StoreSeenByNextFetch. -/
theorem witness_dump : ∃ t, exec (.regDump 1) dumping = .next t ∧ t.fault = false ∧ dumping.canFetch ∧
    dumping.pc.toNat = dumping.base + (0 : Reg).val ∧ (1 : Reg).val = (0 : Reg).val + 1 ∧ (1 : Reg).val ≤ (1 : Reg).val ∧
    ∃ u : State, u.mem = t.mem ∧ u.env.font = t.env.font ∧ u.i = t.i :=
  ⟨_, rfl, rfl, by decide, by decide, by decide, by decide, _, rfl, rfl, rfl⟩

/-- DrawSetsCellsAndCollision: the edges of the address range, and `n = 0` beyond it. -/
theorem witness_draw_range :
    ((2 : BitVec 4).toNat ≥ 1 ∧ ({ State.reset with i := 0xFFF } : State).i.toNat + (2 : BitVec 4).toNat - 1 ≥ 4096) ∧
    ({ State.reset with i := 0xFFF } : State).i.toNat + (1 : BitVec 4).toNat - 1 < 4096 ∧ (0 : BitVec 4).toNat = 0 := by decide

/-- A sprite of one pixel at `0x300`, over a lit cell. -/
def overLit : State := withCells (withBytes { State.reset with i := 0x300 } 0x300 [0x80]) [0]

/-- DrawSetsCellsAndCollision, DrawingTwiceCollides: a cell that the sprite covers and that is lit, and none. -/
theorem witness_collision : ∃ k : Fin 2048, SpriteCovers overLit 0 1 1 k ∧ overLit.cell k = true :=
  ⟨0, ⟨0, by decide, 0, by decide, by decide, by decide⟩, by decide⟩
theorem witness_no_collision : ¬∃ k : Fin 2048, SpriteCovers State.reset 0 1 0 k ∧ State.reset.cell k = true := by
  rintro ⟨k, ⟨row, h, _⟩, _⟩
  exact absurd h (Nat.not_lt_zero row)

/-- DrawingTwiceCollides. -/
theorem witness_draw_twice : ∃ t, exec (.draw 0 1 1) overLit = .next t ∧ t.fault = false ∧ t.reg 0 = overLit.reg 0 ∧
    t.reg 1 = overLit.reg 1 ∧ 1 < 16 := ⟨_, rfl, by decide, by decide, by decide, by decide⟩

/-- LitCellsStayLit: a lit cell goes dark under `Reset`, and under a `Tick` of clear-screen. -/
theorem witness_lit_reset : ∃ t, hostEvent .reset overLit = .next t ∧ t.fault = false ∧ overLit.cell 0 = true ∧
    t.cell 0 = false := ⟨_, rfl, by decide, by decide, by decide⟩
theorem witness_lit_clear : ∃ t, hostEvent (.tick 0) (withCells (onWord 0x00E0) [0]) = .next t ∧ t.fault = false ∧
    (withCells (onWord 0x00E0) [0]).cell 0 = true ∧ t.cell 0 = false := ⟨_, rfl, by decide, by decide, by decide⟩

/-- KeySkips, WaitKeyTestsOneKey: the first index out of range and the last in range. -/
theorem witness_key_index : ((withRegs State.reset [(3, 16)]).reg 3).toNat ≥ 16 ∧
    ((withRegs State.reset [(3, 15)]).reg 3).toNat = (15 : Fin 16).val := by decide

/-- WaitKeyWaitsForItsKey. -/
theorem witness_wait_key : (onWord 0xF30A).fault = false ∧ (onWord 0xF30A).canFetch ∧
    decodeWord ((onWord 0xF30A).wordAt (onWord 0xF30A).pc.toNat) = .ok (.waitKey 3) ∧
    ((onWord 0xF30A).reg 3).toNat = (0 : Fin 16).val ∧ (onWord 0xF30A).keyFlag 0 = false := by decide

/-- UnrecognizedWordStalls. -/
theorem witness_stall : State.reset.fault = false ∧ State.reset.canFetch ∧
    (0x0000 : Word) = State.reset.wordAt State.reset.pc.toNat ∧ ∀ row ∈ opcodeTable, row.matches 0x0000 = false := by decide

/-- FaultsAndTheirCauses: each of its six shapes. -/
theorem witness_faults :
    (∃ t, exec .ret State.reset = .next t ∧ t.fault = true) ∧
    (∃ t, exec (.call 0x300) (withStack State.reset 16 0x206) = .next t ∧ t.fault = true) ∧
    (∃ t, exec (.draw 0 1 1) { State.reset with i := 0x1000 } = .next t ∧ t.fault = true) ∧
    (∃ t, exec (.bcdStore 0) { State.reset with i := 0xFFE } = .next t ∧ t.fault = true) ∧
    (∃ t, exec (.regDump 1) { State.reset with i := 0xFFF } = .next t ∧ t.fault = true) ∧
    (∃ t, exec (.regLoad 1) { State.reset with i := 0xFFF } = .next t ∧ t.fault = true) ∧
    (∃ t, exec (.waitKey 0) (withRegs State.reset [(0, 16)]) = .next t ∧ t.fault = true) :=
  ⟨⟨_, rfl, rfl⟩, ⟨_, rfl, rfl⟩, ⟨_, rfl, rfl⟩, ⟨_, rfl, rfl⟩, ⟨_, rfl, rfl⟩, ⟨_, rfl, rfl⟩, ⟨_, rfl, rfl⟩⟩

/-- FaultStateIgnoresAllButReset. -/
theorem witness_fault_state : faulted.fault = true ∧
    HostEvent.reset ∉ [HostEvent.tick 0, .readDisplay, .load [1], .setKey 0 true, .tickTimers] := by decide

/-- ResetStateValues. -/
theorem witness_reset : ∃ t, hostEvent .reset faulted = .next t := ⟨_, rfl⟩

/-- LoadPlacesTheProgram, LaunchState: the longest program that fits and the shortest that does not. -/
theorem witness_load : (List.replicate 3584 (0xAA : Byte)).length ≤ 3584 ∧ (List.replicate 3585 (0xAA : Byte)).length > 3584 ∧
    State.reset.fault = false :=
  ⟨by rw [List.length_replicate], by rw [List.length_replicate]; decide, by decide⟩

/-- TimersCountDown, KeyFlagsFollowTheHost (first clause): a state outside the fault state. -/
theorem witness_live : State.reset.fault = false := by decide

/-- ReadDisplayShowsTheGrid: inside the fault state too. -/
theorem witness_read_display : ∃ t, hostEvent .readDisplay faulted = .next t ∧ faulted.fault = true ∧
    State.reset.fault = false := ⟨_, rfl, by decide, by decide⟩

/-- KeyFlagsFollowTheHost (second clause): another key is set. -/
theorem witness_key_flags : ∃ t, hostEvent (.setKey 1 true) State.reset = .next t ∧ t.fault = false ∧
    HostEvent.setKey 1 true ≠ .reset ∧ ∀ b, HostEvent.setKey 1 true ≠ .setKey 0 b := ⟨_, rfl, by decide, by decide, by decide⟩

/-- StepKeepsTheInvariant: a state one call deep, and its step. -/
theorem witness_invariant : Inv (withStack State.reset 1 0x202) ∧ ∃ t, step (withStack State.reset 1 0x202) = .next t :=
  ⟨⟨nil_wf _, by decide, by decide, by decide⟩, _, rfl⟩

/-- EachPieceHasItsWriters: for each clause an instruction that changes its piece. -/
theorem witness_writers :
    (∃ t, exec (.setImm 3 7) State.reset = .next t ∧ t.fault = false ∧ t.reg 3 ≠ State.reset.reg 3) ∧
    (∃ t, exec (.jump 0x300) State.reset = .next t ∧ t.fault = false ∧ t.pc ≠ State.reset.pc) ∧
    (∃ t, exec (.call 0x300) State.reset = .next t ∧ t.fault = false ∧ t.stack ≠ State.reset.stack ∧
      t.sp ≠ State.reset.sp) ∧
    (∃ t, exec (.setDelay 0) dumping = .next t ∧ t.fault = false ∧ t.dt ≠ dumping.dt) ∧
    (∃ t, exec (.setSound 0) dumping = .next t ∧ t.fault = false ∧ t.st ≠ dumping.st) ∧
    (∃ t, exec (.setIndex 1) State.reset = .next t ∧ t.fault = false ∧ t.i ≠ State.reset.i) ∧
    (∃ t, exec .clearScreen overLit = .next t ∧ t.fault = false ∧ t.fb ≠ overLit.fb) ∧
    (∃ t, exec (.regDump 1) dumping = .next t ∧ t.fault = false ∧ t.readMem 0x300 ≠ dumping.readMem 0x300) :=
  ⟨⟨_, rfl, by decide, by decide⟩, ⟨_, rfl, by decide, by decide⟩, ⟨_, rfl, by decide, by decide, by decide⟩,
    ⟨_, rfl, by decide, by decide⟩, ⟨_, rfl, by decide, by decide⟩, ⟨_, rfl, by decide, by decide⟩,
    ⟨_, rfl, by decide, by decide⟩, _, rfl, by decide, by decide⟩

/-- VfAndItsWriters: each flag writer ends outside the fault state (draw with 15 rows too), and VF changes under a flag and
under a destination that is VF. -/
theorem witness_vf :
    (∃ t, exec (.addReg 0 1) (withRegs State.reset [(0, 0xFF), (1, 1)]) = .next t ∧ t.fault = false ∧
      t.reg vf ≠ (withRegs State.reset [(0, 0xFF), (1, 1)]).reg vf) ∧
    (∃ t, exec (.subReg 0 15) State.reset = .next t ∧ t.fault = false) ∧
    (∃ t, exec (.subnReg 15 0) State.reset = .next t ∧ t.fault = false) ∧
    (∃ t, exec (.shr 15) State.reset = .next t ∧ t.fault = false) ∧
    (∃ t, exec (.shl 15) State.reset = .next t ∧ t.fault = false) ∧
    (∃ t, exec (.draw 0 1 15) overLit = .next t ∧ t.fault = false ∧ 15 < 16 ∧ t.reg vf ≠ overLit.reg vf) ∧
    (∃ t, exec (.regLoad vf) State.reset = .next t ∧ t.fault = false ∧ t.reg vf ≠ State.reset.reg vf) :=
  ⟨⟨_, rfl, by decide, by decide⟩, ⟨_, rfl, by decide⟩, ⟨_, rfl, by decide⟩, ⟨_, rfl, by decide⟩, ⟨_, rfl, by decide⟩,
    ⟨_, rfl, by decide, by decide, by decide⟩, _, rfl, by decide, by decide⟩

/-- RandomByteMattersToRandomOnly. -/
theorem witness_not_random : ∀ x nn, decodeWord (State.reset.wordAt State.reset.pc.toNat) ≠ .ok (.random x nn) := by
  intro x nn h
  have h0 : decodeWord (State.reset.wordAt State.reset.pc.toNat) = .error (.unrecognized 0) := by decide
  rw [h0] at h
  cases h

/-- JumpToSelfStays. -/
theorem witness_jump_to_self : jumpsToSelf (onWord 0x1200) := by
  refine ⟨by decide, by decide, by decide⟩

/-- StepsFollowTheInfiniteSchedule: a beginning, then ticks and timer ticks for ever. -/
theorem witness_infinite_plan :
    (planned [.setKey 1 true] [.given (.tick 0), .given .tickTimers]).env.schedule = [.setKey 1 true] ∧
    (planned [.setKey 1 true] [.given (.tick 0), .given .tickTimers]).env.recurring =
      [HostEvent.tick 0, .tickTimers].map PlannedEvent.given := by decide

/-- BehaviourFollowsTheScheduleAlone: two states with the same core that differ outside it. -/
theorem witness_same_core : SameCore State.reset (State.reset.withRnd 5) ∧
    (State.reset.withRnd 5).env.font = State.reset.env.font ∧ State.reset.withRnd 5 ≠ State.reset := ⟨rfl, rfl, by decide⟩

/-- WaitKeyEndsByTheHost: a host that only ticks, and one that presses the key first (the state is witness_wait_key's). -/
theorem witness_host_never_presses : (∀ n : Nat, (fun _ => HostEvent.tick 0) n ≠ .reset ∧
      ∀ bytes, (fun _ => HostEvent.tick 0) n ≠ .load bytes) ∧
    ∀ n : Nat, (fun _ => HostEvent.tick 0) n ≠ .setKey 0 true :=
  ⟨fun _ => ⟨HostEvent.noConfusion, fun _ => HostEvent.noConfusion⟩, fun _ => HostEvent.noConfusion⟩

/-- Press key 0, then tick for ever. -/
def pressThenTick : Nat → HostEvent
  | 0 => .setKey 0 true
  | _ + 1 => .tick 0

theorem witness_host_presses : (∀ n, pressThenTick n ≠ .reset ∧ ∀ bytes, pressThenTick n ≠ .load bytes) ∧
    pressThenTick 0 = .setKey 0 true ∧ (∀ n, 0 < n → pressThenTick n ≠ .setKey 0 false) ∧
    ∀ n, ∃ n' r, n ≤ n' ∧ pressThenTick n' = .tick r := by
  refine ⟨fun n => ?_, rfl, fun n hn => ?_, fun n => ⟨n + 1, 0, Nat.le_succ n, rfl⟩⟩
  · cases n with
    | zero => exact ⟨HostEvent.noConfusion, fun _ => HostEvent.noConfusion⟩
    | succ n => exact ⟨HostEvent.noConfusion, fun _ => HostEvent.noConfusion⟩
  · cases n with
    | zero => exact absurd hn (Nat.lt_irrefl 0)
    | succ n => exact HostEvent.noConfusion

end Sys2Proof.Tests
end

/-! PROOFS. Control flow (40_control_flow.md): the jumps to a target made of an immediate, and the immediate skips. -/

namespace Sys2Proof.Proofs
open Sys2Proof.Machine

/-! ### What the words of the family decode to (30_encoding.md R64) -/

@[simp] theorem decodeWord_jump (nnn : Addr12) : decodeWord (wordNNN 0x1 nnn) = .ok (.jump nnn) := by
  simp [decodeWord]

@[simp] theorem decodeWord_skipEqImm (x : Reg) (nn : Byte) : decodeWord (wordXNN 0x3 x nn) = .ok (.skipEqImm x nn) := by
  simp [decodeWord]

@[simp] theorem decodeWord_skipNeqImm (x : Reg) (nn : Byte) : decodeWord (wordXNN 0x4 x nn) = .ok (.skipNeqImm x nn) := by
  simp [decodeWord]

@[simp] theorem decodeWord_jumpOffset (nnn : Addr12) : decodeWord (wordNNN 0xB nnn) = .ok (.jumpOffset nnn) := by
  simp [decodeWord]

/-! ### What they answer, in terms of the shared updates -/

theorem exec_jump (nnn : Addr12) (s : State) : exec (.jump nnn) s = .next (s.jumpTo (zext16 nnn)) := rfl

theorem exec_skipEqImm (x : Reg) (nn : Byte) (s : State) :
    exec (.skipEqImm x nn) s = .next (s.skipIf (s.reg x == nn)) := rfl

theorem exec_skipNeqImm (x : Reg) (nn : Byte) (s : State) :
    exec (.skipNeqImm x nn) s = .next (s.skipIf (s.reg x != nn)) := rfl

theorem exec_jumpOffset (nnn : Addr12) (s : State) :
    exec (.jumpOffset nnn) s = .next (s.jumpTo (zext16 (s.reg 0) + zext16 nnn)) := rfl

/-! ### Targets as natural numbers -/

/-- The sum of a byte and a 12-bit address is at most `0x10FE`, so 16 bits hold it (R87). -/
theorem toNat_zext16_add_zext16 (b : Byte) (nnn : Addr12) :
    (zext16 b + zext16 nnn).toNat = b.toNat + nnn.toNat := by
  have hsum : b.toNat + nnn.toNat < 2 ^ 16 := by omega
  rw [BitVec.toNat_add, BitVec.toNat_setWidth_of_le (by decide), BitVec.toNat_setWidth_of_le (by decide),
    Nat.mod_eq_of_lt hsum]

/-! ### Conditional skips -/

/-- `c` is the machine's test and `P` the rule's condition: the two readings of a skip agree. -/
theorem pc_of_exec_skipIf {i : Instr} {s : State} {c : Bool} {P : Prop} [Decidable P]
    (hexec : exec i s = .next (s.skipIf c)) (hc : c = true ↔ P) :
    ∃ t, exec i s = .next t ∧ t.pc = (if P then s.pc + 2 else s.pc) ∧ OnlyPc s t := by
  refine ⟨_, hexec, ?_, frame_skipIf s c⟩
  rw [skipIf_pc]
  exact if_congr hc rfl rfl

/-! ### The obligations -/

/-- Settles O11: the target is the zero-extended immediate, and a jump's frame is `frame_jumpTo`. -/
theorem jumpSetsPc : Obligations.JumpSetsPc := by
  intro nnn s
  have htarget : (zext16 nnn).toNat = nnn.toNat := BitVec.toNat_setWidth_of_le (by decide)
  exact ⟨decodeWord_jump nnn, _, exec_jump nnn s, htarget, frame_jumpTo s _⟩

/-- Settles O13: both skips are `skipIf` on the comparison of `V[x]` with `nn`. -/
theorem immediateSkips : Obligations.ImmediateSkips := by
  intro x nn s
  exact ⟨decodeWord_skipEqImm x nn, decodeWord_skipNeqImm x nn,
    pc_of_exec_skipIf (exec_skipEqImm x nn s) beq_iff_eq,
    pc_of_exec_skipIf (exec_skipNeqImm x nn s) bne_iff_ne⟩

/-- Settles O15: the 16-bit sum of V0 and the immediate loses no carry. -/
theorem jumpOffsetAddsV0 : Obligations.JumpOffsetAddsV0 := by
  intro nnn s
  exact ⟨decodeWord_jumpOffset nnn, _, exec_jumpOffset nnn s, toNat_zext16_add_zext16 (s.reg 0) nnn, frame_jumpTo s _⟩

end Sys2Proof.Proofs

/-! PROOFS. Arithmetic and logic (41_alu.md): the assignments and the bitwise operations, each one write to `V[x]`. -/

namespace Sys2Proof.Proofs
open Sys2Proof.Machine

/-! ### What the words of the family decode to (30_encoding.md R64) -/

@[simp] theorem decodeWord_setImm (x : Reg) (nn : Byte) : decodeWord (wordXNN 0x6 x nn) = .ok (.setImm x nn) := by
  simp [decodeWord]

/-- The words `8xyN` are told apart by `decodeArith` alone. -/
theorem decodeWord_op8 (x y : Reg) (n : BitVec 4) :
    decodeWord (wordXYN 0x8 x y n) = decodeArith (wordXYN 0x8 x y n) := by
  simp [decodeWord]

@[simp] theorem decodeWord_setReg (x y : Reg) : decodeWord (wordXYN 0x8 x y 0x0) = .ok (.setReg x y) := by
  rw [decodeWord_op8]; simp [decodeArith]

@[simp] theorem decodeWord_orReg (x y : Reg) : decodeWord (wordXYN 0x8 x y 0x1) = .ok (.orReg x y) := by
  rw [decodeWord_op8]; simp [decodeArith]

@[simp] theorem decodeWord_andReg (x y : Reg) : decodeWord (wordXYN 0x8 x y 0x2) = .ok (.andReg x y) := by
  rw [decodeWord_op8]; simp [decodeArith]

@[simp] theorem decodeWord_xorReg (x y : Reg) : decodeWord (wordXYN 0x8 x y 0x3) = .ok (.xorReg x y) := by
  rw [decodeWord_op8]; simp [decodeArith]

/-! ### What they answer, in terms of the shared updates -/

theorem exec_setImm (x : Reg) (nn : Byte) (s : State) : exec (.setImm x nn) s = .next (s.setReg x nn) := rfl

theorem exec_setReg (x y : Reg) (s : State) : exec (.setReg x y) s = .next (s.setReg x (s.reg y)) := rfl

theorem exec_orReg (x y : Reg) (s : State) : exec (.orReg x y) s = .next (s.setReg x (s.reg x ||| s.reg y)) := rfl

theorem exec_andReg (x y : Reg) (s : State) : exec (.andReg x y) s = .next (s.setReg x (s.reg x &&& s.reg y)) := rfl

theorem exec_xorReg (x y : Reg) (s : State) : exec (.xorReg x y) s = .next (s.setReg x (s.reg x ^^^ s.reg y)) := rfl

/-! ### Instructions that write one register -/

/-- An instruction that is one write to `V[x]`: the value read back, and the frame. -/
theorem reg_of_exec_setReg {i : Instr} {s : State} {x : Reg} {b : Byte} (hexec : exec i s = .next (s.setReg x b)) :
    ∃ t, exec i s = .next t ∧ t.reg x = b ∧ OnlyRegsWritten [x] s t :=
  ⟨_, hexec, reg_setReg_self s x b, frame_setReg s x b⟩

/-- The same, the value given by its bits. -/
theorem bits_of_exec_setReg {i : Instr} {s : State} {x : Reg} {b : Byte} {bit : Nat → Bool}
    (hexec : exec i s = .next (s.setReg x b)) (hbit : ∀ k, b.getLsbD k = bit k) :
    ∃ t, exec i s = .next t ∧ (∀ k, (t.reg x).getLsbD k = bit k) ∧ OnlyRegsWritten [x] s t := by
  obtain ⟨t, hnext, hreg, hframe⟩ := reg_of_exec_setReg hexec
  exact ⟨t, hnext, fun k => hreg ▸ hbit k, hframe⟩

/-! ### The obligations -/

/-- Settles O16: set-imm is one write of `nn` to `V[x]`. -/
theorem setImmAssigns : Obligations.SetImmAssigns := by
  intro x nn s
  exact ⟨decodeWord_setImm x nn, reg_of_exec_setReg (exec_setImm x nn s)⟩

/-- Settles O18: set-reg is one write of the old `V[y]` to `V[x]`. -/
theorem setRegCopies : Obligations.SetRegCopies := by
  intro x y s
  exact ⟨decodeWord_setReg x y, reg_of_exec_setReg (exec_setReg x y s)⟩

/-- Settles O19: each operation is one write to `V[x]`, of a value whose bits are those of the operands combined. -/
theorem bitwiseOps : Obligations.BitwiseOps := by
  intro x y s
  exact ⟨decodeWord_orReg x y, decodeWord_andReg x y, decodeWord_xorReg x y,
    bits_of_exec_setReg (exec_orReg x y s) fun _ => BitVec.getLsbD_or,
    bits_of_exec_setReg (exec_andReg x y s) fun _ => BitVec.getLsbD_and,
    bits_of_exec_setReg (exec_xorReg x y s) fun _ => BitVec.getLsbD_xor⟩

end Sys2Proof.Proofs

/-! PROOFS. Index and memory (42_index_memory.md): the assignment to I. -/

namespace Sys2Proof.Proofs
open Sys2Proof.Machine

/-! ### What set-index decodes from, and what it answers -/

@[simp] theorem decodeWord_setIndex (nnn : Addr12) : decodeWord (wordNNN 0xA nnn) = .ok (.setIndex nnn) := by
  simp [decodeWord]

theorem exec_setIndex (nnn : Addr12) (s : State) : exec (.setIndex nnn) s = .next { s with i := zext16 nnn } := rfl

/-! ### Instructions that write the index register -/

/-- An assignment to I changes I alone. -/
theorem frame_setI (s : State) (w : Word) : OnlyPiecesWritten [.index] s { s with i := w } := by
  refine ⟨fun p hp => ?_, fun _ _ => rfl, fun _ => rfl⟩
  cases p with
  | index => exact absurd List.mem_cons_self hp
  | _ => rfl

/-- An instruction that is one write to I: the value read back as a number, and the frame. -/
theorem index_of_exec_setI {i : Instr} {s : State} {w : Word} {n : Nat} (hexec : exec i s = .next { s with i := w })
    (hw : w.toNat = n) :
    ∃ t, exec i s = .next t ∧ t.i.toNat = n ∧ OnlyPiecesWritten [.index] s t :=
  ⟨_, hexec, hw, frame_setI s w⟩

/-! ### The obligations -/

/-- Settles O25: set-index is one write to I, of the immediate, whose 12 bits the 16-bit register holds whole. -/
theorem setIndexAssigns : Obligations.SetIndexAssigns := by
  intro nnn s
  have hvalue : (zext16 nnn).toNat = nnn.toNat := BitVec.toNat_setWidth_of_le (by decide)
  exact ⟨decodeWord_setIndex nnn, index_of_exec_setI (exec_setIndex nnn s) hvalue⟩

end Sys2Proof.Proofs

/-! PROOFS. Display (43_display.md): clear-screen. -/

namespace Sys2Proof.Proofs
open Sys2Proof.Machine

/-! ### What clear-screen decodes from, and what it answers -/

@[simp] theorem decodeWord_clearScreen : decodeWord 0x00E0 = .ok .clearScreen := by decide

theorem exec_clearScreen (s : State) : exec .clearScreen s = .next { s with fb := clearCells } := rfl

/-! ### Instructions that write the framebuffer -/

/-- An assignment to the framebuffer changes the framebuffer alone. -/
theorem frame_setFb (s : State) (fb : FrameBuffer) : OnlyPiecesWritten [.display] s { s with fb := fb } := by
  refine ⟨fun p hp => ?_, fun _ _ => rfl, fun _ => rfl⟩
  cases p with
  | display => exact absurd List.mem_cons_self hp
  | _ => rfl

/-! ### The obligations -/

/-- Settles O33: clear-screen is one write of the framebuffer, to the one whose cells are all false. -/
theorem clearScreenClearsEveryCell : Obligations.ClearScreenClearsEveryCell :=
  ⟨decodeWord_clearScreen, fun s => ⟨_, exec_clearScreen s, cellOf_clearCells, frame_setFb s clearCells⟩⟩

end Sys2Proof.Proofs

/-! PROOFS. Keys and timers (44_keys_timers.md): the moves between `V[x]` and the timers. -/

namespace Sys2Proof.Proofs
open Sys2Proof.Machine

/-! ### What the timer moves decode from, and what they answer -/

/-- The words `FxNN` are told apart by `decodeMisc` alone. -/
theorem decodeWord_opF (x : Reg) (nn : Byte) : decodeWord (wordXNN 0xF x nn) = decodeMisc (wordXNN 0xF x nn) := by
  simp [decodeWord]

@[simp] theorem decodeWord_getDelay (x : Reg) : decodeWord (wordXNN 0xF x 0x07) = .ok (.getDelay x) := by
  rw [decodeWord_opF]; simp [decodeMisc]

@[simp] theorem decodeWord_setDelay (x : Reg) : decodeWord (wordXNN 0xF x 0x15) = .ok (.setDelay x) := by
  rw [decodeWord_opF]; simp [decodeMisc]

@[simp] theorem decodeWord_setSound (x : Reg) : decodeWord (wordXNN 0xF x 0x18) = .ok (.setSound x) := by
  rw [decodeWord_opF]; simp [decodeMisc]

theorem exec_getDelay (x : Reg) (s : State) : exec (.getDelay x) s = .next (s.setReg x s.dt) := rfl

theorem exec_setDelay (x : Reg) (s : State) : exec (.setDelay x) s = .next { s with dt := s.reg x } := rfl

theorem exec_setSound (x : Reg) (s : State) : exec (.setSound x) s = .next { s with st := s.reg x } := rfl

/-! ### Assignments to the timers -/

/-- An assignment to the delay timer changes the delay timer alone. -/
theorem frame_setDt (s : State) (b : Byte) : OnlyPiecesWritten [.delay] s { s with dt := b } := by
  refine ⟨fun p hp => ?_, fun _ _ => rfl, fun _ => rfl⟩
  cases p with
  | delay => exact absurd List.mem_cons_self hp
  | _ => rfl

/-- An assignment to the sound timer changes the sound timer alone. -/
theorem frame_setSt (s : State) (b : Byte) : OnlyPiecesWritten [.sound] s { s with st := b } := by
  refine ⟨fun p hp => ?_, fun _ _ => rfl, fun _ => rfl⟩
  cases p with
  | sound => exact absurd List.mem_cons_self hp
  | _ => rfl

/-! ### The obligations -/

/-- Settles O40: get-delay is one write of the delay timer to `V[x]`; set-delay and set-sound are one write of `V[x]` to
their timer. -/
theorem timerMoves : Obligations.TimerMoves := by
  intro x s
  exact ⟨decodeWord_getDelay x, decodeWord_setDelay x, decodeWord_setSound x,
    reg_of_exec_setReg (exec_getDelay x s),
    ⟨_, exec_setDelay x s, rfl, frame_setDt s (s.reg x)⟩,
    ⟨_, exec_setSound x s, rfl, frame_setSt s (s.reg x)⟩⟩

end Sys2Proof.Proofs

/-! PROOFS. The 60 Hz countdown (60_exceptions.md R195): a run of `TickTimers` iterates `countDown` on both timers. -/

namespace Sys2Proof.Proofs
open Sys2Proof.Machine

/-! ### One timer -/

/-- A count down is the truncated predecessor: the subtraction of 1 happens above 0 only, so it does not wrap. -/
@[simp] theorem toNat_countDown (b : Byte) : (countDown b).toNat = b.toNat - 1 := by
  unfold countDown
  split
  case isTrue hpos =>
    have hle : (1 : Byte) ≤ b := BitVec.le_def.mpr hpos
    exact BitVec.toNat_sub_of_le hle
  case isFalse hzero => omega

theorem toNat_iterate_countDown (n : Nat) (b : Byte) : (countDown^[n] b).toNat = b.toNat - n := by
  induction n generalizing b with
  | zero => rfl
  | succ n ih => rw [Function.iterate_succ_apply, ih, toNat_countDown, Nat.sub_sub, Nat.add_comm 1 n]

/-! ### Both timers under a run of `TickTimers` -/

/-- An assignment to the two timers changes the two timers alone. -/
theorem frame_setTimers (s : State) (d b : Byte) :
    OnlyPiecesWritten [.delay, .sound] s { s with dt := d, st := b } := by
  refine ⟨fun p hp => ?_, fun _ _ => rfl, fun _ => rfl⟩
  cases p with
  | delay => exact absurd List.mem_cons_self hp
  | sound => exact absurd (List.mem_cons_of_mem _ List.mem_cons_self) hp
  | _ => rfl

theorem hostEvent_tickTimers {s : State} (hs : s.fault = false) :
    hostEvent .tickTimers s = .next { s with dt := countDown s.dt, st := countDown s.st } :=
  hostEvent_live hs .tickTimers

theorem runEvents_tickTimers (n : Nat) {s : State} (hs : s.fault = false) :
    runEvents (List.replicate n .tickTimers) s =
      .next { s with dt := countDown^[n] s.dt, st := countDown^[n] s.st } := by
  induction n generalizing s with
  | zero => rfl
  | succ n ih =>
    rw [List.replicate_succ, runEvents, hostEvent_tickTimers hs]
    exact ih hs

/-! ### The obligation -/

/-- Settles O48: `n` events are one write to the two timers, of their `n`-fold count down. -/
theorem timersCountDown : Obligations.TimersCountDown := by
  refine ⟨rfl, rfl, fun s n hs => ?_⟩
  exact ⟨_, runEvents_tickTimers n hs, toNat_iterate_countDown n s.dt, toNat_iterate_countDown n s.st,
    frame_setTimers s _ _⟩

end Sys2Proof.Proofs

/-! PROOFS. `Reset` (70_reset_and_hazards.md R210): one answer in the live and in the fault state. -/

namespace Sys2Proof.Proofs
open Sys2Proof.Machine

/-! ### What the event answers -/

/-- The two event functions agree on `Reset`, so its answer does not depend on the latch (60_exceptions.md R184). -/
theorem hostEvent_reset (s : State) : hostEvent .reset s = .next (resetCore s) := by
  cases hfault : s.fault with
  | false => exact hostEvent_live hfault .reset
  | true => exact hostEvent_faulted hfault .reset

/-- Nothing of the old core is left: what differs from the state of construction stands outside the core. -/
theorem sameCore_resetCore (s : State) : SameCore State.reset (resetCore s) := rfl

/-! ### The obligation -/

/-- Settles O44: in every state the answer is the reset core, beside what stands outside the core, the font with it. -/
theorem resetFromAnyState : Obligations.ResetFromAnyState := by
  intro s
  have hfont : (resetCore s).env.font = s.env.font := congrArg Env.font (resetCore_env s)
  exact ⟨_, hostEvent_reset s, sameCore_resetCore s, hfont⟩

end Sys2Proof.Proofs

/-! PROOFS. The decoder and the encoder (30_encoding.md R64 to R69): what every layout decodes to, and the round trip from
an instruction to its word and back. -/

namespace Sys2Proof.Proofs
open Sys2Proof.Machine

/-! ### What the words of the map decode to, beside those of the sections above (R64) -/

@[simp] theorem decodeWord_ret : decodeWord 0x00EE = .ok .ret := by decide

@[simp] theorem decodeWord_call (nnn : Addr12) : decodeWord (wordNNN 0x2 nnn) = .ok (.call nnn) := by
  simp [decodeWord]

@[simp] theorem decodeWord_skipEqReg (x y : Reg) : decodeWord (wordXYN 0x5 x y 0) = .ok (.skipEqReg x y) := by
  simp [decodeWord]

@[simp] theorem decodeWord_addImm (x : Reg) (nn : Byte) : decodeWord (wordXNN 0x7 x nn) = .ok (.addImm x nn) := by
  simp [decodeWord]

@[simp] theorem decodeWord_addReg (x y : Reg) : decodeWord (wordXYN 0x8 x y 0x4) = .ok (.addReg x y) := by
  rw [decodeWord_op8]; simp [decodeArith]

@[simp] theorem decodeWord_subReg (x y : Reg) : decodeWord (wordXYN 0x8 x y 0x5) = .ok (.subReg x y) := by
  rw [decodeWord_op8]; simp [decodeArith]

@[simp] theorem decodeWord_shr (x y : Reg) : decodeWord (wordXYN 0x8 x y 0x6) = .ok (.shr x) := by
  rw [decodeWord_op8]; simp [decodeArith]

@[simp] theorem decodeWord_subnReg (x y : Reg) : decodeWord (wordXYN 0x8 x y 0x7) = .ok (.subnReg x y) := by
  rw [decodeWord_op8]; simp [decodeArith]

@[simp] theorem decodeWord_shl (x y : Reg) : decodeWord (wordXYN 0x8 x y 0xE) = .ok (.shl x) := by
  rw [decodeWord_op8]; simp [decodeArith]

@[simp] theorem decodeWord_skipNeqReg (x y : Reg) : decodeWord (wordXYN 0x9 x y 0) = .ok (.skipNeqReg x y) := by
  simp [decodeWord]

@[simp] theorem decodeWord_random (x : Reg) (nn : Byte) : decodeWord (wordXNN 0xC x nn) = .ok (.random x nn) := by
  simp [decodeWord]

@[simp] theorem decodeWord_draw (x y : Reg) (n : BitVec 4) :
    decodeWord (wordXYN 0xD x y n) = .ok (.draw x y n.toNat) := by
  simp [decodeWord]

/-- The words `ExNN` are told apart by `decodeKeys` alone. -/
theorem decodeWord_opE (x : Reg) (nn : Byte) : decodeWord (wordXNN 0xE x nn) = decodeKeys (wordXNN 0xE x nn) := by
  simp [decodeWord]

@[simp] theorem decodeWord_skipKeyPressed (x : Reg) : decodeWord (wordXNN 0xE x 0x9E) = .ok (.skipKeyPressed x) := by
  rw [decodeWord_opE]; simp [decodeKeys]

@[simp] theorem decodeWord_skipKeyNotPressed (x : Reg) :
    decodeWord (wordXNN 0xE x 0xA1) = .ok (.skipKeyNotPressed x) := by
  rw [decodeWord_opE]; simp [decodeKeys]

@[simp] theorem decodeWord_waitKey (x : Reg) : decodeWord (wordXNN 0xF x 0x0A) = .ok (.waitKey x) := by
  rw [decodeWord_opF]; simp [decodeMisc]

@[simp] theorem decodeWord_addToIndex (x : Reg) : decodeWord (wordXNN 0xF x 0x1E) = .ok (.addToIndex x) := by
  rw [decodeWord_opF]; simp [decodeMisc]

@[simp] theorem decodeWord_fontCharAddr (x : Reg) : decodeWord (wordXNN 0xF x 0x29) = .ok (.fontCharAddr x) := by
  rw [decodeWord_opF]; simp [decodeMisc]

@[simp] theorem decodeWord_bcdStore (x : Reg) : decodeWord (wordXNN 0xF x 0x33) = .ok (.bcdStore x) := by
  rw [decodeWord_opF]; simp [decodeMisc]

@[simp] theorem decodeWord_regDump (x : Reg) : decodeWord (wordXNN 0xF x 0x55) = .ok (.regDump x) := by
  rw [decodeWord_opF]; simp [decodeMisc]

@[simp] theorem decodeWord_regLoad (x : Reg) : decodeWord (wordXNN 0xF x 0x65) = .ok (.regLoad x) := by
  rw [decodeWord_opF]; simp [decodeMisc]

/-! ### From an instruction to its word and back -/

/-- The one operand a field may not hold is draw's row count; all others are bounded by their types (R61, R63). -/
theorem decodeWord_encode {i : Instr} (hwf : WellFormed i = true) : decodeWord (encode i) = .ok i := by
  cases i with
  | draw x y n =>
    have hn : n < 16 := of_decide_eq_true hwf
    have hrows : (BitVec.ofNat 4 n).toNat = n := Nat.mod_eq_of_lt hn
    exact (decodeWord_draw x y _).trans (by rw [hrows])
  | clearScreen => exact decodeWord_clearScreen
  | ret => exact decodeWord_ret
  | jump nnn => exact decodeWord_jump nnn
  | call nnn => exact decodeWord_call nnn
  | skipEqImm x nn => exact decodeWord_skipEqImm x nn
  | skipNeqImm x nn => exact decodeWord_skipNeqImm x nn
  | skipEqReg x y => exact decodeWord_skipEqReg x y
  | setImm x nn => exact decodeWord_setImm x nn
  | addImm x nn => exact decodeWord_addImm x nn
  | setReg x y => exact decodeWord_setReg x y
  | orReg x y => exact decodeWord_orReg x y
  | andReg x y => exact decodeWord_andReg x y
  | xorReg x y => exact decodeWord_xorReg x y
  | addReg x y => exact decodeWord_addReg x y
  | subReg x y => exact decodeWord_subReg x y
  | shr x => exact decodeWord_shr x 0
  | subnReg x y => exact decodeWord_subnReg x y
  | shl x => exact decodeWord_shl x 0
  | skipNeqReg x y => exact decodeWord_skipNeqReg x y
  | setIndex nnn => exact decodeWord_setIndex nnn
  | jumpOffset nnn => exact decodeWord_jumpOffset nnn
  | random x nn => exact decodeWord_random x nn
  | skipKeyPressed x => exact decodeWord_skipKeyPressed x
  | skipKeyNotPressed x => exact decodeWord_skipKeyNotPressed x
  | getDelay x => exact decodeWord_getDelay x
  | waitKey x => exact decodeWord_waitKey x
  | setDelay x => exact decodeWord_setDelay x
  | setSound x => exact decodeWord_setSound x
  | addToIndex x => exact decodeWord_addToIndex x
  | fontCharAddr x => exact decodeWord_fontCharAddr x
  | bcdStore x => exact decodeWord_bcdStore x
  | regDump x => exact decodeWord_regDump x
  | regLoad x => exact decodeWord_regLoad x

/-- The first two bytes make the word that is decoded; what follows them is left (R45, R60). -/
theorem decodeBytes_encodeBytes {i : Instr} (h : decodeWord (encode i) = .ok i) (rest : List Byte) :
    decodeBytes (encodeBytes i ++ rest) = .ok (i, rest) := by
  simp only [encodeBytes, List.cons_append, List.nil_append, decodeBytes, wordOfBytes_bytesOfWord, h]

/-! ### From a word to its instruction and back -/

/-- The four nibbles with `y` masked out, as shr and shl assemble (R69). -/
theorem and_FF0F (w : Word) : w &&& (0xFF0F : Word) = wordXYN (fieldOp w) (fieldX w) 0 (fieldN w) := by
  have h : w &&& (0xFF0F : Word) = ((w >>> 8) <<< 8) + ((w <<< 12) >>> 12) := by
    rw [BitVec.add_eq_or_of_and_eq_zero]
    · ext i hi
      interval_cases i <;> simp
    · ext i hi
      interval_cases i <;> simp
  apply BitVec.eq_of_toNat_eq
  rw [h, toNat_wordXYN, toNat_fieldOp, val_fieldX, toNat_fieldN]
  simp [Nat.shiftRight_eq_div_pow, Nat.shiftLeft_eq]
  omega

/-- What encoding a word's instruction gives: shr and shl ignore `y` and assemble it as 0, every other instruction holds
all of the word's fields (R68, R69). -/
def EncodesBack (w : Word) (i : Instr) : Prop :=
  ((∃ x, i = .shr x) ∨ (∃ x, i = .shl x) → encode i = w &&& 0xFF0F) ∧
    ((¬∃ x, i = .shr x) ∧ (¬∃ x, i = .shl x) → encode i = w)

theorem EncodesBack.of_eq {w : Word} {i : Instr} (hr : ∀ x, i ≠ .shr x) (hl : ∀ x, i ≠ .shl x) (h : encode i = w) :
    EncodesBack w i := by
  refine ⟨?_, fun _ => h⟩
  rintro (⟨x, rfl⟩ | ⟨x, rfl⟩)
  · exact absurd rfl (hr x)
  · exact absurd rfl (hl x)

theorem EncodesBack.of_ignoredY {w : Word} {i : Instr} (hi : (∃ x, i = .shr x) ∨ (∃ x, i = .shl x))
    (h : encode i = w &&& 0xFF0F) : EncodesBack w i :=
  ⟨fun _ => h, fun hn => (hi.elim hn.1 hn.2).elim⟩

/-! The layouts, filled with a word's own fields and with opcode constants that the word has, give the word. -/

theorem wordNNN_eq_self {w : Word} {op : BitVec 4} (hop : fieldOp w = op) : wordNNN op (fieldNNN w) = w :=
  hop ▸ wordNNN_fields w

theorem wordXNN_eq_self {w : Word} {op : BitVec 4} {nn : Byte} (hop : fieldOp w = op) (hnn : fieldNN w = nn) :
    wordXNN op (fieldX w) nn = w :=
  hop ▸ hnn ▸ wordXNN_fields w

theorem wordXYN_eq_self {w : Word} {op n : BitVec 4} (hop : fieldOp w = op) (hn : fieldN w = n) :
    wordXYN op (fieldX w) (fieldY w) n = w :=
  hop ▸ hn ▸ wordXYN_fields w

theorem wordXYN_eq_maskedY {w : Word} {op n : BitVec 4} (hop : fieldOp w = op) (hn : fieldN w = n) :
    wordXYN op (fieldX w) 0 n = w &&& 0xFF0F :=
  hop ▸ hn ▸ (and_FF0F w).symm

/-! Each part of the decoder, for the words that reach it. -/

theorem encodesBack_decodeSystem {w : Word} {i : Instr} (h : decodeSystem w = .ok i) : EncodesBack w i := by
  unfold decodeSystem at h
  split at h
  case isTrue hw => cases h; exact .of_eq nofun nofun hw.symm
  case isFalse =>
    split at h
    case isTrue hw => cases h; exact .of_eq nofun nofun hw.symm
    case isFalse => cases h

theorem encodesBack_decodeArith {w : Word} {i : Instr} (hop : fieldOp w = 0x8) (h : decodeArith w = .ok i) :
    EncodesBack w i := by
  have hself {n : BitVec 4} (hn : (fieldN w).toNat = n.toNat) : wordXYN 0x8 (fieldX w) (fieldY w) n = w :=
    wordXYN_eq_self hop (BitVec.eq_of_toNat_eq hn)
  have hmasked {n : BitVec 4} (hn : (fieldN w).toNat = n.toNat) : wordXYN 0x8 (fieldX w) 0 n = w &&& 0xFF0F :=
    wordXYN_eq_maskedY hop (BitVec.eq_of_toNat_eq hn)
  unfold decodeArith at h
  split at h
  case h_1 hn => cases h; exact .of_eq nofun nofun (hself hn)
  case h_2 hn => cases h; exact .of_eq nofun nofun (hself hn)
  case h_3 hn => cases h; exact .of_eq nofun nofun (hself hn)
  case h_4 hn => cases h; exact .of_eq nofun nofun (hself hn)
  case h_5 hn => cases h; exact .of_eq nofun nofun (hself hn)
  case h_6 hn => cases h; exact .of_eq nofun nofun (hself hn)
  case h_7 hn => cases h; exact .of_ignoredY (.inl ⟨_, rfl⟩) (hmasked hn)
  case h_8 hn => cases h; exact .of_eq nofun nofun (hself hn)
  case h_9 hn => cases h; exact .of_ignoredY (.inr ⟨_, rfl⟩) (hmasked hn)
  case h_10 => cases h

theorem encodesBack_decodeKeys {w : Word} {i : Instr} (hop : fieldOp w = 0xE) (h : decodeKeys w = .ok i) :
    EncodesBack w i := by
  unfold decodeKeys at h
  split_ifs at h with hnn hnn <;> cases h <;> exact .of_eq nofun nofun (wordXNN_eq_self hop hnn)

theorem encodesBack_decodeMisc {w : Word} {i : Instr} (hop : fieldOp w = 0xF) (h : decodeMisc w = .ok i) :
    EncodesBack w i := by
  unfold decodeMisc at h
  split_ifs at h with hnn hnn hnn hnn hnn hnn hnn hnn hnn <;> cases h <;>
    exact .of_eq nofun nofun (wordXNN_eq_self hop hnn)

theorem encodesBack_decodeWord {w : Word} {i : Instr} (h : decodeWord w = .ok i) : EncodesBack w i := by
  have hop {op : BitVec 4} (hn : (fieldOp w).toNat = op.toNat) : fieldOp w = op := BitVec.eq_of_toNat_eq hn
  unfold decodeWord at h
  split at h
  case h_1 => exact encodesBack_decodeSystem h
  case h_2 hn => cases h; exact .of_eq nofun nofun (wordNNN_eq_self (hop hn))
  case h_3 hn => cases h; exact .of_eq nofun nofun (wordNNN_eq_self (hop hn))
  case h_4 hn => cases h; exact .of_eq nofun nofun (wordXNN_eq_self (hop hn) rfl)
  case h_5 hn => cases h; exact .of_eq nofun nofun (wordXNN_eq_self (hop hn) rfl)
  case h_6 hn =>
    split_ifs at h with h0
    cases h; exact .of_eq nofun nofun (wordXYN_eq_self (hop hn) h0)
  case h_7 hn => cases h; exact .of_eq nofun nofun (wordXNN_eq_self (hop hn) rfl)
  case h_8 hn => cases h; exact .of_eq nofun nofun (wordXNN_eq_self (hop hn) rfl)
  case h_9 hn => exact encodesBack_decodeArith (hop hn) h
  case h_10 hn =>
    split_ifs at h with h0
    cases h; exact .of_eq nofun nofun (wordXYN_eq_self (hop hn) h0)
  case h_11 hn => cases h; exact .of_eq nofun nofun (wordNNN_eq_self (hop hn))
  case h_12 hn => cases h; exact .of_eq nofun nofun (wordNNN_eq_self (hop hn))
  case h_13 hn => cases h; exact .of_eq nofun nofun (wordXNN_eq_self (hop hn) rfl)
  case h_14 hn =>
    cases h
    refine .of_eq nofun nofun ?_
    have hrows : BitVec.ofNat 4 (fieldN w).toNat = fieldN w := by simp
    exact (congrArg (wordXYN 0xD (fieldX w) (fieldY w)) hrows).trans (wordXYN_eq_self (hop hn) rfl)
  case h_15 hn => exact encodesBack_decodeKeys (hop hn) h
  case h_16 =>
    have hF : (fieldOp w).toNat = 15 := by simp only [imp_false] at *; omega
    exact encodesBack_decodeMisc (hop hF) h

/-! ### Words that are rejected (R67) -/

theorem decodeSystem_rejects_iff (w : Word) :
    decodeSystem w = .error (.unrecognized w) ↔ w ≠ 0x00E0 ∧ w ≠ 0x00EE := by
  unfold decodeSystem
  split_ifs with hcls hret
  · exact iff_of_false nofun fun h => h.1 hcls
  · exact iff_of_false nofun fun h => h.2 hret
  · exact iff_of_true rfl ⟨hcls, hret⟩

theorem decodeArith_rejects_iff (w : Word) : decodeArith w = .error (.unrecognized w) ↔
    8 ≤ (fieldN w).toNat ∧ (fieldN w).toNat ≤ 0xD ∨ fieldN w = 0xF := by
  have hF : fieldN w = 0xF ↔ (fieldN w).toNat = 15 := BitVec.toNat_eq
  have hlt : (fieldN w).toNat < 16 := (fieldN w).isLt
  rw [hF]
  generalize hn : (fieldN w).toNat = n at hlt
  unfold decodeArith
  rw [hn]
  interval_cases n <;> simp

theorem decodeKeys_rejects_iff (w : Word) :
    decodeKeys w = .error (.unrecognized w) ↔ fieldNN w ≠ 0x9E ∧ fieldNN w ≠ 0xA1 := by
  unfold decodeKeys
  split_ifs with hdown hup
  · exact iff_of_false nofun fun h => h.1 hdown
  · exact iff_of_false nofun fun h => h.2 hup
  · exact iff_of_true rfl ⟨hdown, hup⟩

theorem decodeMisc_rejects_iff (w : Word) : decodeMisc w = .error (.unrecognized w) ↔
    fieldNN w ∉ [(0x07 : Byte), 0x0A, 0x15, 0x18, 0x1E, 0x29, 0x33, 0x55, 0x65] := by
  unfold decodeMisc
  split_ifs <;> simp_all

/-- The words `5xyN` and `9xyN` are an instruction for `N = 0` only. -/
theorem fourthNibble_rejects_iff (w : Word) (i : Instr) :
    (if fieldN w = 0 then Except.ok i else Except.error (Reject.unrecognized w)) = Except.error (.unrecognized w) ↔
      fieldN w ≠ 0 := by
  split_ifs with hn
  · exact iff_of_false nofun fun h => h hn
  · exact iff_of_true rfl hn

/-- The first nibble chooses the clause. -/
theorem decodeWord_rejects_iff (w : Word) : decodeWord w = .error (.unrecognized w) ↔
    (fieldOp w = 0x0 ∧ w ≠ 0x00E0 ∧ w ≠ 0x00EE) ∨ (fieldOp w = 0x5 ∧ fieldN w ≠ 0) ∨
    (fieldOp w = 0x8 ∧ (8 ≤ (fieldN w).toNat ∧ (fieldN w).toNat ≤ 0xD ∨ fieldN w = 0xF)) ∨
    (fieldOp w = 0x9 ∧ fieldN w ≠ 0) ∨ (fieldOp w = 0xE ∧ fieldNN w ≠ 0x9E ∧ fieldNN w ≠ 0xA1) ∨
    (fieldOp w = 0xF ∧ fieldNN w ∉ [(0x07 : Byte), 0x0A, 0x15, 0x18, 0x1E, 0x29, 0x33, 0x55, 0x65]) := by
  rw [← decodeSystem_rejects_iff, ← decodeArith_rejects_iff, ← decodeKeys_rejects_iff, ← decodeMisc_rejects_iff,
    ← fourthNibble_rejects_iff w (.skipEqReg (fieldX w) (fieldY w))]
  have hnine := fourthNibble_rejects_iff w (.skipNeqReg (fieldX w) (fieldY w))
  have hop (op : BitVec 4) : fieldOp w = op ↔ (fieldOp w).toNat = op.toNat := BitVec.toNat_eq
  have hlt : (fieldOp w).toNat < 16 := (fieldOp w).isLt
  simp only [hop]
  unfold decodeWord
  generalize (fieldOp w).toNat = op at hlt
  interval_cases op <;> simp_all

/-- The decoder names the word it rejects (R67). -/
theorem decodeWord_error {w : Word} {e : Reject} (h : decodeWord w = .error e) : e = .unrecognized w := by
  unfold decodeWord at h
  split at h
  case h_1 => unfold decodeSystem at h; split_ifs at h; cases h; rfl
  case h_6 => split_ifs at h; cases h; rfl
  case h_9 => unfold decodeArith at h; split at h <;> cases h; rfl
  case h_10 => split_ifs at h; cases h; rfl
  case h_15 => unfold decodeKeys at h; split_ifs at h; cases h; rfl
  case h_16 => unfold decodeMisc at h; split_ifs at h; cases h; rfl
  all_goals cases h

/-! ### The rows a word fits (R64) -/

theorem fieldOp_of_and_F000 {w : Word} {op : BitVec 4} (h : w &&& (0xF000 : Word) = wordXYN op 0 0 0) :
    fieldOp w = op := by
  rw [and_F000] at h
  simpa using congrArg fieldOp h

theorem fields_of_and_F00F {w : Word} {op n : BitVec 4} (h : w &&& (0xF00F : Word) = wordXYN op 0 0 n) :
    fieldOp w = op ∧ fieldN w = n := by
  rw [and_F00F] at h
  exact ⟨by simpa using congrArg fieldOp h, by simpa using congrArg fieldN h⟩

theorem fields_of_and_F0FF {w : Word} {op : BitVec 4} {nn : Byte} (h : w &&& (0xF0FF : Word) = wordXNN op 0 nn) :
    fieldOp w = op ∧ fieldNN w = nn := by
  rw [and_F0FF] at h
  exact ⟨by simpa using congrArg fieldOp h, by simpa using congrArg fieldNN h⟩

/-! A word that fits a row decodes by the rule of the row's layout. -/

theorem decodeWord_of_nnnRow {w : Word} {op : BitVec 4} {mk : Addr12 → Instr}
    (hdec : ∀ nnn, decodeWord (wordNNN op nnn) = .ok (mk nnn)) (h : w &&& (0xF000 : Word) = wordXYN op 0 0 0) :
    decodeWord w = .ok (mk (fieldNNN w)) := by
  rw [← hdec, wordNNN_eq_self (fieldOp_of_and_F000 h)]

theorem decodeWord_of_xnnRow {w : Word} {op : BitVec 4} {mk : Reg → Byte → Instr}
    (hdec : ∀ x nn, decodeWord (wordXNN op x nn) = .ok (mk x nn)) (h : w &&& (0xF000 : Word) = wordXYN op 0 0 0) :
    decodeWord w = .ok (mk (fieldX w) (fieldNN w)) := by
  rw [← hdec, wordXNN_eq_self (fieldOp_of_and_F000 h) rfl]

theorem decodeWord_of_xynRow {w : Word} {op : BitVec 4} {mk : Reg → Reg → BitVec 4 → Instr}
    (hdec : ∀ x y n, decodeWord (wordXYN op x y n) = .ok (mk x y n)) (h : w &&& (0xF000 : Word) = wordXYN op 0 0 0) :
    decodeWord w = .ok (mk (fieldX w) (fieldY w) (fieldN w)) := by
  rw [← hdec, wordXYN_eq_self (fieldOp_of_and_F000 h) rfl]

theorem decodeWord_of_xyRow {w : Word} {op n : BitVec 4} {mk : Reg → Reg → Instr}
    (hdec : ∀ x y, decodeWord (wordXYN op x y n) = .ok (mk x y)) (h : w &&& (0xF00F : Word) = wordXYN op 0 0 n) :
    decodeWord w = .ok (mk (fieldX w) (fieldY w)) := by
  obtain ⟨hop, hn⟩ := fields_of_and_F00F h
  rw [← hdec, wordXYN_eq_self hop hn]

theorem decodeWord_of_xRow {w : Word} {op : BitVec 4} {nn : Byte} {mk : Reg → Instr}
    (hdec : ∀ x, decodeWord (wordXNN op x nn) = .ok (mk x)) (h : w &&& (0xF0FF : Word) = wordXNN op 0 nn) :
    decodeWord w = .ok (mk (fieldX w)) := by
  obtain ⟨hop, hnn⟩ := fields_of_and_F0FF h
  rw [← hdec, wordXNN_eq_self hop hnn]

theorem decodeWord_of_fixedRow {w p : Word} {i : Instr} (hdec : decodeWord p = .ok i)
    (h : w &&& (0xFFFF : Word) = p) : decodeWord w = .ok i := by
  rw [← hdec, ← h, and_FFFF]

/-- A word that fits the row of an instruction decodes to an instruction of that row. -/
theorem decodeWord_of_matches {i : Instr} {w : Word} (h : i.row.matches w = true) :
    ∃ j, decodeWord w = .ok j ∧ j.row = i.row := by
  replace h : w &&& i.row.mask = i.row.pattern := beq_iff_eq.1 h
  cases i with
  | clearScreen => exact ⟨_, decodeWord_of_fixedRow decodeWord_clearScreen h, rfl⟩
  | ret => exact ⟨_, decodeWord_of_fixedRow decodeWord_ret h, rfl⟩
  | jump => exact ⟨_, decodeWord_of_nnnRow decodeWord_jump h, rfl⟩
  | call => exact ⟨_, decodeWord_of_nnnRow decodeWord_call h, rfl⟩
  | skipEqImm => exact ⟨_, decodeWord_of_xnnRow decodeWord_skipEqImm h, rfl⟩
  | skipNeqImm => exact ⟨_, decodeWord_of_xnnRow decodeWord_skipNeqImm h, rfl⟩
  | skipEqReg => exact ⟨_, decodeWord_of_xyRow decodeWord_skipEqReg h, rfl⟩
  | setImm => exact ⟨_, decodeWord_of_xnnRow decodeWord_setImm h, rfl⟩
  | addImm => exact ⟨_, decodeWord_of_xnnRow decodeWord_addImm h, rfl⟩
  | setReg => exact ⟨_, decodeWord_of_xyRow decodeWord_setReg h, rfl⟩
  | orReg => exact ⟨_, decodeWord_of_xyRow decodeWord_orReg h, rfl⟩
  | andReg => exact ⟨_, decodeWord_of_xyRow decodeWord_andReg h, rfl⟩
  | xorReg => exact ⟨_, decodeWord_of_xyRow decodeWord_xorReg h, rfl⟩
  | addReg => exact ⟨_, decodeWord_of_xyRow decodeWord_addReg h, rfl⟩
  | subReg => exact ⟨_, decodeWord_of_xyRow decodeWord_subReg h, rfl⟩
  | shr => exact ⟨_, decodeWord_of_xyRow decodeWord_shr h, rfl⟩
  | subnReg => exact ⟨_, decodeWord_of_xyRow decodeWord_subnReg h, rfl⟩
  | shl => exact ⟨_, decodeWord_of_xyRow decodeWord_shl h, rfl⟩
  | skipNeqReg => exact ⟨_, decodeWord_of_xyRow decodeWord_skipNeqReg h, rfl⟩
  | setIndex => exact ⟨_, decodeWord_of_nnnRow decodeWord_setIndex h, rfl⟩
  | jumpOffset => exact ⟨_, decodeWord_of_nnnRow decodeWord_jumpOffset h, rfl⟩
  | random => exact ⟨_, decodeWord_of_xnnRow decodeWord_random h, rfl⟩
  | draw => exact ⟨_, decodeWord_of_xynRow decodeWord_draw h, rfl⟩
  | skipKeyPressed => exact ⟨_, decodeWord_of_xRow decodeWord_skipKeyPressed h, rfl⟩
  | skipKeyNotPressed => exact ⟨_, decodeWord_of_xRow decodeWord_skipKeyNotPressed h, rfl⟩
  | getDelay => exact ⟨_, decodeWord_of_xRow decodeWord_getDelay h, rfl⟩
  | waitKey => exact ⟨_, decodeWord_of_xRow decodeWord_waitKey h, rfl⟩
  | setDelay => exact ⟨_, decodeWord_of_xRow decodeWord_setDelay h, rfl⟩
  | setSound => exact ⟨_, decodeWord_of_xRow decodeWord_setSound h, rfl⟩
  | addToIndex => exact ⟨_, decodeWord_of_xRow decodeWord_addToIndex h, rfl⟩
  | fontCharAddr => exact ⟨_, decodeWord_of_xRow decodeWord_fontCharAddr h, rfl⟩
  | bcdStore => exact ⟨_, decodeWord_of_xRow decodeWord_bcdStore h, rfl⟩
  | regDump => exact ⟨_, decodeWord_of_xRow decodeWord_regDump h, rfl⟩
  | regLoad => exact ⟨_, decodeWord_of_xRow decodeWord_regLoad h, rfl⟩

theorem encode_matches (i : Instr) : i.row.matches (encode i) = true := by
  cases i with
  | clearScreen => exact Laws.EncodeInRow.clearScreen
  | ret => exact Laws.EncodeInRow.ret
  | jump => exact Laws.EncodeInRow.jump ..
  | call => exact Laws.EncodeInRow.call ..
  | skipEqImm => exact Laws.EncodeInRow.skipEqImm ..
  | skipNeqImm => exact Laws.EncodeInRow.skipNeqImm ..
  | skipEqReg => exact Laws.EncodeInRow.skipEqReg ..
  | setImm => exact Laws.EncodeInRow.setImm ..
  | addImm => exact Laws.EncodeInRow.addImm ..
  | setReg => exact Laws.EncodeInRow.setReg ..
  | orReg => exact Laws.EncodeInRow.orReg ..
  | andReg => exact Laws.EncodeInRow.andReg ..
  | xorReg => exact Laws.EncodeInRow.xorReg ..
  | addReg => exact Laws.EncodeInRow.addReg ..
  | subReg => exact Laws.EncodeInRow.subReg ..
  | shr => exact Laws.EncodeInRow.shr ..
  | subnReg => exact Laws.EncodeInRow.subnReg ..
  | shl => exact Laws.EncodeInRow.shl ..
  | skipNeqReg => exact Laws.EncodeInRow.skipNeqReg ..
  | setIndex => exact Laws.EncodeInRow.setIndex ..
  | jumpOffset => exact Laws.EncodeInRow.jumpOffset ..
  | random => exact Laws.EncodeInRow.random ..
  | draw => exact Laws.EncodeInRow.draw ..
  | skipKeyPressed => exact Laws.EncodeInRow.skipKeyPressed ..
  | skipKeyNotPressed => exact Laws.EncodeInRow.skipKeyNotPressed ..
  | getDelay => exact Laws.EncodeInRow.getDelay ..
  | waitKey => exact Laws.EncodeInRow.waitKey ..
  | setDelay => exact Laws.EncodeInRow.setDelay ..
  | setSound => exact Laws.EncodeInRow.setSound ..
  | addToIndex => exact Laws.EncodeInRow.addToIndex ..
  | fontCharAddr => exact Laws.EncodeInRow.fontCharAddr ..
  | bcdStore => exact Laws.EncodeInRow.bcdStore ..
  | regDump => exact Laws.EncodeInRow.regDump ..
  | regLoad => exact Laws.EncodeInRow.regLoad ..

/-- Masking out `y` does not change what a row of mask `F00F` sees. -/
theorem and_FF0F_and_F00F (w : Word) : w &&& 0xFF0F &&& (0xF00F : Word) = w &&& 0xF00F := by
  rw [BitVec.and_assoc]; rfl

/-- A word fits the row of the instruction it decodes to: the ignored `y` of shr and shl is outside their rows' masks. -/
theorem matches_of_decodeWord {w : Word} {i : Instr} (h : decodeWord w = .ok i) : i.row.matches w = true := by
  obtain ⟨hignored, hall⟩ := encodesBack_decodeWord h
  have hrow := encode_matches i
  by_cases hr : ∃ x, i = .shr x
  · rw [hignored (.inl hr)] at hrow
    obtain ⟨x, rfl⟩ := hr
    simpa only [OpcodeRow.matches, Instr.row, and_FF0F_and_F00F] using hrow
  by_cases hl : ∃ x, i = .shl x
  · rw [hignored (.inr hl)] at hrow
    obtain ⟨x, rfl⟩ := hl
    simpa only [OpcodeRow.matches, Instr.row, and_FF0F_and_F00F] using hrow
  rwa [hall ⟨hr, hl⟩] at hrow

theorem row_mem_opcodeTable (i : Instr) : i.row ∈ opcodeTable := by
  cases i <;> simp [opcodeTable, Instr.samples, Instr.row]

/-- Every row of the map that a word fits is the row of the instruction it decodes to. -/
theorem row_of_matches {w : Word} {r : OpcodeRow} (hr : r ∈ opcodeTable) (hm : r.matches w = true) :
    ∃ i, decodeWord w = .ok i ∧ i.row = r := by
  obtain ⟨i, -, rfl⟩ := List.mem_map.1 hr
  exact decodeWord_of_matches hm

/-- The decoder gives only instructions an encoding can hold: draw's row count is a 4-bit field (R63). -/
theorem wellFormed_of_decodeWord {w : Word} {i : Instr} (h : decodeWord w = .ok i) : WellFormed i = true := by
  cases i with
  | draw x y n =>
    have hmask : w &&& (0xF000 : Word) = 0xD000 := beq_iff_eq.1 (matches_of_decodeWord h)
    have hdraw := decodeWord_of_xynRow decodeWord_draw hmask
    have hn : n = (fieldN w).toNat := by cases h.symm.trans hdraw; rfl
    exact decide_eq_true (hn ▸ (fieldN w).isLt)
  | _ => rfl

theorem filter_eq_row {w : Word} {i : Instr} (h : decodeWord w = .ok i) :
    opcodeTable.filter (fun r => r.matches w) = [i.row] := by
  have hnodup : opcodeTable.Nodup := by decide
  have hself : i.row ∈ opcodeTable.filter (fun r => r.matches w) :=
    List.mem_filter.2 ⟨row_mem_opcodeTable i, matches_of_decodeWord h⟩
  have hunique : ∀ r ∈ opcodeTable.filter (fun r => r.matches w), r = i.row := by
    intro r hr
    obtain ⟨hmem, hm⟩ := List.mem_filter.1 hr
    obtain ⟨j, hj, rfl⟩ := row_of_matches hmem hm
    rw [Except.ok.inj (h.symm.trans hj)]
  by_contra hne
  rcases ((hnodup.filter _).ne_singleton_iff i.row).1 hne with hnil | ⟨r, hr, hdiff⟩
  · exact List.not_mem_nil (hnil ▸ hself)
  · exact hdiff (hunique r hr)

/-- A word that is rejected fits no row. -/
theorem filter_eq_nil {w : Word} {e : Reject} (h : decodeWord w = .error e) :
    opcodeTable.filter (fun r => r.matches w) = [] := by
  refine List.filter_eq_nil_iff.2 fun r hr hm => ?_
  obtain ⟨j, hj, -⟩ := row_of_matches hr hm
  cases h.symm.trans hj

/-! ### The obligations -/

/-- Settles O1: ten fixed words. -/
theorem anchoredWordsDecode : Obligations.AnchoredWordsDecode := by
  unfold Obligations.AnchoredWordsDecode
  decide

/-- Settles O2: a layout gives its fields back, and two bytes in memory order are their word. -/
theorem decodeEncodeRoundTrip : Obligations.DecodeEncodeRoundTrip := by
  intro i hwf
  have hword := decodeWord_encode hwf
  exact ⟨hword, decodeBytes_encodeBytes hword⟩

/-- Settles O3: a decoded word fits its instruction's row, and a word that fits a row decodes to that row. -/
theorem decodeAgreesWithOpcodeMap : Obligations.DecodeAgreesWithOpcodeMap := by
  intro w
  cases h : decodeWord w with
  | ok i => exact .inl ⟨i, rfl, wellFormed_of_decodeWord h, filter_eq_row h⟩
  | error e => exact .inr ⟨by rw [decodeWord_error h], filter_eq_nil h⟩

/-- Settles O4: one clause for each first nibble that leaves words out. -/
theorem unrecognizedWordsAreThese : Obligations.UnrecognizedWordsAreThese := decodeWord_rejects_iff

/-- Settles O5: an instruction holds all of its word's fields but the ignored `y`. -/
theorem encodeGivesTheWordBack : Obligations.EncodeGivesTheWordBack := fun _ _ h => encodesBack_decodeWord h

end Sys2Proof.Proofs

/-! PROOFS. Control flow (40_control_flow.md): return and call, and the register skips. -/

namespace Sys2Proof.Proofs
open Sys2Proof.Machine

/-! ### What return and call answer -/

theorem exec_ret_empty {s : State} (h : s.sp.val = 0) : exec .ret s = .next (enterFault .stackUnderflow s) := by
  simp only [exec, execRet, pop_empty h, raise_eq]

/-- The state after a pop into PC. -/
def popped (s : State) : State :=
  ({ s with sp := ⟨s.sp.val - 1, by omega⟩ } : State).jumpTo (s.stack[s.sp.val - 1]'(by omega))

theorem exec_ret_live {s : State} (h : s.sp.val ≠ 0) : exec .ret s = .next (popped s) := by
  simp only [exec, execRet, pop_live h, popped]

theorem exec_call_full {s : State} (h : s.sp.val = 16) (nnn : Addr12) :
    exec (.call nnn) s = .next (enterFault .stackOverflow s) := by
  simp only [exec, execCall, push_full h, raise_eq]

/-- The state after PC was pushed, at the target of the call. -/
def called (s : State) (nnn : Addr12) (h : s.sp.val < 16) : State :=
  ({ s with stack := s.stack.set s.sp.val s.pc h, sp := ⟨s.sp.val + 1, by omega⟩ } : State).jumpTo (zext16 nnn)

theorem exec_call_room {s : State} (h : s.sp.val < 16) (nnn : Addr12) :
    exec (.call nnn) s = .next (called s nnn h) := by
  simp only [exec, execCall, push_room h, called]

/-! ### The frames of return and call -/

theorem frame_popped (s : State) : OnlyPiecesWritten [.sp, .pc] s (popped s) := by
  refine ⟨fun q hq => ?_, fun _ _ => rfl, fun _ => rfl⟩
  cases q with
  | sp | pc => simp at hq
  | _ => rfl

theorem frame_called (s : State) (nnn : Addr12) (h : s.sp.val < 16) :
    OnlyPiecesWritten [.stack, .sp, .pc] s (called s nnn h) := by
  refine ⟨fun q hq => ?_, fun _ _ => rfl, fun _ => rfl⟩
  cases q with
  | stack | sp | pc => simp at hq
  | _ => rfl

/-! ### The register skips -/

theorem exec_skipEqReg (x y : Reg) (s : State) :
    exec (.skipEqReg x y) s = .next (s.skipIf (s.reg x == s.reg y)) := rfl

theorem exec_skipNeqReg (x y : Reg) (s : State) :
    exec (.skipNeqReg x y) s = .next (s.skipIf (s.reg x != s.reg y)) := rfl

/-! ### The obligations -/

/-- A pop takes back what a push stored. -/
theorem exec_call_ret {s : State} (h : s.sp.val < 16) (nnn : Addr12) :
    ∃ t u, exec (.call nnn) s = .next t ∧ exec .ret t = .next u ∧ u.pc = s.pc ∧ u.sp = s.sp := by
  refine ⟨_, _, exec_call_room h nnn, exec_ret_live (Nat.succ_ne_zero _), ?_, rfl⟩
  exact Vector.getElem_set_self h

/-- Settles O10: with an entry in use the pop succeeds, with none it raises the fault. -/
theorem returnPopsIntoPc : Obligations.ReturnPopsIntoPc := by
  refine ⟨decodeWord_ret, fun s h => ?_, fun s h => ?_, fun s nnn h => exec_call_ret h nnn⟩
  · exact ⟨_, exec_ret_empty h, faulted_enterFault _ s⟩
  · have hcount : s.sp.val - 1 + 1 = s.sp.val := Nat.succ_pred h
    exact ⟨_, exec_ret_live h, hcount, Vector.getElem?_eq_getElem _, frame_popped s⟩

/-- Settles O12: with room the push succeeds, with none it raises the fault. -/
theorem callPushesAndJumps : Obligations.CallPushesAndJumps := by
  refine fun nnn s => ⟨decodeWord_call nnn, fun h => ?_, fun h => ?_⟩
  · exact ⟨_, exec_call_full h nnn, faulted_enterFault _ s⟩
  · have htarget : (zext16 nnn).toNat = nnn.toNat := BitVec.toNat_setWidth_of_le (by decide)
    exact ⟨_, exec_call_room h nnn, htarget, rfl, Vector.getElem?_set_self h,
      fun j hj => Vector.getElem?_set_ne h hj.symm, frame_called s nnn h⟩

/-- Settles O14: both skips are `skipIf` on the comparison of `V[x]` with `V[y]`, and the fourth nibble is part of their
opcode. -/
theorem registerSkips : Obligations.RegisterSkips := by
  intro x y s
  refine ⟨decodeWord_skipEqReg x y, decodeWord_skipNeqReg x y, fun n hn => ?_,
    pc_of_exec_skipIf (exec_skipEqReg x y s) beq_iff_eq, pc_of_exec_skipIf (exec_skipNeqReg x y s) bne_iff_ne⟩
  constructor
  · exact (decodeWord_rejects_iff _).2 (.inr (.inl ⟨fieldOp_wordXYN .., by rwa [fieldN_wordXYN]⟩))
  · exact (decodeWord_rejects_iff _).2 (.inr (.inr (.inr (.inl ⟨fieldOp_wordXYN .., by rwa [fieldN_wordXYN]⟩))))

end Sys2Proof.Proofs

/-! PROOFS. Arithmetic and logic (41_alu.md): add-imm and random, and the instructions that write a result and then a
flag. -/

namespace Sys2Proof.Proofs
open Sys2Proof.Machine

/-! ### What they answer, in terms of the shared updates -/

theorem exec_addImm (x : Reg) (nn : Byte) (s : State) : exec (.addImm x nn) s = .next (s.setReg x (s.reg x + nn)) := rfl

theorem exec_random (x : Reg) (nn : Byte) (s : State) :
    exec (.random x nn) s = .next (s.setReg x (s.env.rnd &&& nn)) := rfl

theorem exec_addReg (x y : Reg) (s : State) :
    exec (.addReg x y) s = .next (s.setRegFlag x (s.reg x + s.reg y) (carryFlag (s.reg x) (s.reg y))) := rfl

theorem exec_subReg (x y : Reg) (s : State) :
    exec (.subReg x y) s = .next (s.setRegFlag x (s.reg x - s.reg y) (noBorrowFlag (s.reg x) (s.reg y))) := rfl

theorem exec_subnReg (x y : Reg) (s : State) :
    exec (.subnReg x y) s = .next (s.setRegFlag x (s.reg y - s.reg x) (noBorrowFlag (s.reg y) (s.reg x))) := rfl

theorem exec_shr (x : Reg) (s : State) :
    exec (.shr x) s = .next (s.setRegFlag x (s.reg x >>> 1) (shrFlag (s.reg x))) := rfl

theorem exec_shl (x : Reg) (s : State) :
    exec (.shl x) s = .next (s.setRegFlag x (s.reg x <<< 1) (shlFlag (s.reg x))) := rfl

/-! ### Flags and results as natural numbers -/

theorem carryFlag_eq (a b : Byte) : carryFlag a b = if a.toNat + b.toNat > 255 then 1 else 0 := by
  simp [carryFlag, flagByte]

theorem noBorrowFlag_eq (a b : Byte) : noBorrowFlag a b = if a.toNat ≥ b.toNat then 1 else 0 := by
  simp [noBorrowFlag, flagByte]

theorem toNat_shrFlag (a : Byte) : (shrFlag a).toNat = a.toNat % 2 := by
  rw [shrFlag, BitVec.toNat_and]
  exact Nat.and_one_is_mod _

/-- The mask `0xF0` leaves the high nibble where it is. -/
theorem toNat_shlFlag (a : Byte) : (shlFlag a).toNat = a.toNat / 16 * 16 := by
  have hmask : a &&& (0xF0 : Byte) = (a >>> 4) <<< 4 := by
    ext i hi
    interval_cases i <;> simp
  rw [shlFlag, hmask]
  simp only [BitVec.toNat_shiftLeft, BitVec.toNat_ushiftRight, Nat.shiftRight_eq_div_pow, Nat.shiftLeft_eq]
  omega

theorem toNat_sub_wraps (a b : Byte) : (a - b).toNat = (a.toNat + 256 - b.toNat) % 256 := by
  rw [BitVec.toNat_sub]
  omega

theorem toNat_shr_one (a : Byte) : (a >>> 1).toNat = a.toNat / 2 := by
  simp [Nat.shiftRight_eq_div_pow]

theorem toNat_shl_one (a : Byte) : (a <<< 1).toNat = 2 * a.toNat % 256 := by
  simp [Nat.shiftLeft_eq, Nat.mul_comm]

/-! ### Instructions that write a result and a flag -/

/-- An instruction that is one result to `V[x]` and then one flag to VF: what each reads as, and the frame. -/
theorem regs_of_exec_setRegFlag {i : Instr} {s : State} {x : Reg} {result flag : Byte}
    (hexec : exec i s = .next (s.setRegFlag x result flag)) :
    ∃ t, exec i s = .next t ∧ t.reg vf = flag ∧ (x ≠ vf → t.reg x = result) ∧ OnlyRegsWritten [x, vf] s t := by
  refine ⟨_, hexec, ?_, fun hx => ?_, frame_setRegFlag s x result flag⟩
  · rw [reg_setRegFlag, if_pos rfl]
  · rw [reg_setRegFlag, if_neg hx, if_pos rfl]

/-! ### The obligations -/

/-- Settles O17: add-imm is one write of the 8-bit sum to `V[x]`. -/
theorem addImmWraps : Obligations.AddImmWraps := by
  intro x nn s
  obtain ⟨t, hnext, hreg, hframe⟩ := reg_of_exec_setReg (exec_addImm x nn s)
  exact ⟨decodeWord_addImm x nn, t, hnext, hreg ▸ BitVec.toNat_add _ _, hframe⟩

/-- Settles O20: the sum wraps at 256, and the flag compares the exact sum with 255. -/
theorem addRegSumAndCarry : Obligations.AddRegSumAndCarry := by
  intro x y s
  obtain ⟨t, hnext, hflag, hresult, hframe⟩ := regs_of_exec_setRegFlag (exec_addReg x y s)
  exact ⟨decodeWord_addReg x y, t, hnext, hflag.trans (carryFlag_eq _ _),
    fun hx => hresult hx ▸ BitVec.toNat_add _ _, hframe⟩

/-- Settles O21: both are one difference and the comparison of its operands. -/
theorem subtractionsAndBorrow : Obligations.SubtractionsAndBorrow := by
  intro x y s
  refine ⟨decodeWord_subReg x y, decodeWord_subnReg x y, ?_, ?_⟩
  · obtain ⟨t, hnext, hflag, hresult, hframe⟩ := regs_of_exec_setRegFlag (exec_subReg x y s)
    exact ⟨t, hnext, hflag.trans (noBorrowFlag_eq _ _), fun hx => hresult hx ▸ toNat_sub_wraps _ _, hframe⟩
  · obtain ⟨t, hnext, hflag, hresult, hframe⟩ := regs_of_exec_setRegFlag (exec_subnReg x y s)
    exact ⟨t, hnext, hflag.trans (noBorrowFlag_eq _ _), fun hx => hresult hx ▸ toNat_sub_wraps _ _, hframe⟩

/-- Settles O22: a shift right halves, and the flag is the bit it drops. -/
theorem shrHalvesAndKeepsBit : Obligations.ShrHalvesAndKeepsBit := by
  intro x y s
  obtain ⟨t, hnext, hflag, hresult, hframe⟩ := regs_of_exec_setRegFlag (exec_shr x s)
  exact ⟨decodeWord_shr x y, t, hnext, hflag ▸ toNat_shrFlag _, fun hx => hresult hx ▸ toNat_shr_one _, hframe⟩

/-- Settles O23: a shift left doubles modulo 256, and the flag is the high nibble in place. -/
theorem shlDoublesAndMasks : Obligations.ShlDoublesAndMasks := by
  intro x y s
  obtain ⟨t, hnext, hflag, hresult, hframe⟩ := regs_of_exec_setRegFlag (exec_shl x s)
  exact ⟨decodeWord_shl x y, t, hnext, hflag, hflag ▸ toNat_shlFlag _, fun hx => hresult hx ▸ toNat_shl_one _, hframe⟩

/-- Settles O24: random is one write to `V[x]`, of the byte handed over masked with `nn`. -/
theorem randomMasksTheByte : Obligations.RandomMasksTheByte := by
  intro x nn r s
  exact ⟨decodeWord_random x nn, reg_of_exec_setReg (exec_random x nn (s.withRnd r))⟩

end Sys2Proof.Proofs

/-! PROOFS. Index and memory (42_index_memory.md): the other writers of I, and the instructions that store and load bytes
at `I`. -/

namespace Sys2Proof.Proofs
open Sys2Proof.Machine

/-! ### The writers of I -/

theorem exec_addToIndex (x : Reg) (s : State) :
    exec (.addToIndex x) s = .next { s with i := s.i + zext16 (s.reg x) } := rfl

theorem exec_fontCharAddr (x : Reg) (s : State) :
    exec (.fontCharAddr x) s = .next { s with i := zext16 (s.reg x) * 5 } := rfl

theorem toNat_add_zext16 (w : Word) (b : Byte) : (w + zext16 b).toNat = (w.toNat + b.toNat) % 65536 := by
  rw [BitVec.toNat_add, BitVec.toNat_setWidth_of_le (by decide)]

/-- Five times a byte is at most 1275, so 16 bits hold it (R122). -/
theorem toNat_zext16_mul_five (b : Byte) : (zext16 b * 5).toNat = b.toNat * 5 := by
  have hlt : b.toNat * 5 < 2 ^ 16 := by omega
  rw [BitVec.toNat_mul, BitVec.toNat_setWidth_of_le (by decide)]
  exact Nat.mod_eq_of_lt hlt

/-! ### Storing and loading at an address: in range, and out of range (20_memory.md R42, R48) -/

/-- The state after bytes were stored. -/
def stored (s : State) (a : Nat) (bs : List Byte) : State :=
  { s with mem := Memory.writeBytes s.env.font s.mem a bs }

/-- The byte of each stored place. -/
theorem readMem_stored_getElem (s : State) (a : Nat) (bs : List Byte) {k : Nat} (hk : k < bs.length) :
    (stored s a bs).readMem (a + k) = bs[k] := by
  have hplace : a ≤ a + k ∧ a + k < a + bs.length := by omega
  simp only [stored, readMem_stored, dif_pos hplace, Nat.add_sub_cancel_left]

theorem orRaise_storeBytes_inRange (s : State) {a : Nat} {bs : List Byte} (h : a + bs.length ≤ 4096) :
    orRaise s (storeBytes s a bs) = .next (stored s a bs) := by
  rw [storeBytes_eq, if_pos (.inr h)]
  rfl

theorem orRaise_storeBytes_outOfRange (s : State) {a : Nat} {bs : List Byte} (hne : bs ≠ [])
    (h : ¬a + bs.length ≤ 4096) : orRaise s (storeBytes s a bs) = .next (enterFault .dataAddrRange s) := by
  rw [storeBytes_eq, if_neg (not_or_intro hne h), orRaise_error]

theorem regsUpTo_ne_nil (s : State) (x : Reg) : s.regsUpTo x ≠ [] :=
  List.ne_nil_of_length_pos (length_regsUpTo s x ▸ Nat.succ_pos _)

theorem exec_bcdStore_inRange {s : State} (x : Reg) (h : s.base + 3 ≤ 4096) :
    exec (.bcdStore x) s = .next (stored s s.base (bcdDigits (s.reg x))) :=
  orRaise_storeBytes_inRange s h

theorem exec_bcdStore_outOfRange {s : State} (x : Reg) (h : ¬s.base + 3 ≤ 4096) :
    exec (.bcdStore x) s = .next (enterFault .dataAddrRange s) :=
  orRaise_storeBytes_outOfRange s (List.cons_ne_nil _ _) h

theorem exec_regDump_inRange {s : State} {x : Reg} (h : s.base + (x.val + 1) ≤ 4096) :
    exec (.regDump x) s = .next (stored s s.base (s.regsUpTo x)) :=
  orRaise_storeBytes_inRange s (by rwa [length_regsUpTo])

theorem exec_regDump_outOfRange {s : State} {x : Reg} (h : ¬s.base + (x.val + 1) ≤ 4096) :
    exec (.regDump x) s = .next (enterFault .dataAddrRange s) :=
  orRaise_storeBytes_outOfRange s (regsUpTo_ne_nil s x) (by rwa [length_regsUpTo])

theorem exec_regLoad_inRange {s : State} {x : Reg} (h : s.base + (x.val + 1) ≤ 4096) :
    exec (.regLoad x) s = .next { s with v := loadRegs s.v 0 ((List.range' s.base (x.val + 1)).map s.readMem) } := by
  simp only [exec, execRegLoad, loadBytes_eq, if_pos (Or.inr h : x.val + 1 = 0 ∨ s.base + (x.val + 1) ≤ 4096)]

theorem exec_regLoad_outOfRange {s : State} {x : Reg} (h : ¬s.base + (x.val + 1) ≤ 4096) :
    exec (.regLoad x) s = .next (enterFault .dataAddrRange s) := by
  have hout : ¬(x.val + 1 = 0 ∨ s.base + (x.val + 1) ≤ Config.memSize) := not_or_intro (Nat.succ_ne_zero _) h
  simp only [exec, execRegLoad, loadBytes_eq, if_neg hout, raise_eq]

/-- Loading registers changes them alone. -/
theorem frame_setV (s : State) (v : Vector Byte 16) :
    OnlyPieces [] s { s with v := v } ∧ SameMemory s { s with v := v } := by
  refine ⟨fun p _ => ?_, fun _ => rfl⟩
  cases p <;> rfl

/-- What reg-dump stored: the registers in their places. -/
theorem readMem_dumped (s : State) {x k : Reg} (hk : k.val ≤ x.val) (a : Nat) :
    (stored s a (s.regsUpTo x)).readMem (a + k.val) = s.reg k := by
  have hlen : k.val < (s.regsUpTo x).length := by rw [length_regsUpTo]; omega
  rw [readMem_stored_getElem s a _ hlen, getElem_regsUpTo]

/-! ### Decimal digits (R123) -/

/-- What bcd-store stored: each digit as a number, since a byte holds it whole. -/
theorem readMem_digits (s : State) (a : Nat) (b : Byte) :
    ((stored s a (bcdDigits b)).readMem a).toNat = b.toNat / 100 ∧
    ((stored s a (bcdDigits b)).readMem (a + 1)).toNat = b.toNat / 10 % 10 ∧
    ((stored s a (bcdDigits b)).readMem (a + 2)).toNat = b.toNat % 10 := by
  have hread (k : Nat) (hk : k < 3) : (stored s a (bcdDigits b)).readMem (a + k) = (bcdDigits b)[k]'hk :=
    readMem_stored_getElem s a (bcdDigits b) hk
  have hbyte (n : Nat) (hn : n < 256) : (BitVec.ofNat 8 n).toNat = n := Nat.mod_eq_of_lt hn
  refine ⟨?_, ?_, ?_⟩
  · exact (congrArg _ (hread 0 (by decide))).trans (hbyte _ (by omega))
  · exact (congrArg _ (hread 1 (by decide))).trans (hbyte _ (by omega))
  · exact (congrArg _ (hread 2 (by decide))).trans (hbyte _ (by omega))

/-! ### The obligations -/

/-- Settles O26: add-to-index is one write to I, of the sum modulo 65536. -/
theorem addToIndexWraps : Obligations.AddToIndexWraps := by
  intro x s
  exact ⟨decodeWord_addToIndex x, index_of_exec_setI (exec_addToIndex x s) (toNat_add_zext16 s.i (s.reg x))⟩

/-- Settles O27: font-char-addr is one write to I, of a product that 16 bits hold whole. -/
theorem fontCharAddrIsFiveTimes : Obligations.FontCharAddrIsFiveTimes := by
  intro x s
  exact ⟨decodeWord_fontCharAddr x, index_of_exec_setI (exec_fontCharAddr x s) (toNat_zext16_mul_five (s.reg x))⟩

/-- Settles O28: bcd-store stores the three digits, and its frame is that of three stored bytes. -/
theorem bcdStoreWritesDigits : Obligations.BcdStoreWritesDigits := by
  refine fun x s => ⟨decodeWord_bcdStore x, fun h => ?_, fun h => ?_⟩
  · have hout : ¬s.base + 3 ≤ 4096 := by unfold State.base; omega
    exact ⟨_, exec_bcdStore_outOfRange x hout, faulted_enterFault _ s⟩
  · have hin : s.base + 3 ≤ 4096 := by unfold State.base; omega
    obtain ⟨hhundreds, htens, hones⟩ := readMem_digits s s.base (s.reg x)
    exact ⟨_, exec_bcdStore_inRange x hin, hhundreds, htens, hones, frame_stored s s.base (bcdDigits (s.reg x))⟩

/-- Settles O29: reg-dump stores the list of the registers, and its frame is that of the bytes stored. -/
theorem regDumpStoresRegisters : Obligations.RegDumpStoresRegisters := by
  refine fun x s => ⟨decodeWord_regDump x, fun h => ?_, fun h => ?_⟩
  · have hout : ¬s.base + (x.val + 1) ≤ 4096 := by unfold State.base; omega
    exact ⟨_, exec_regDump_outOfRange hout, faulted_enterFault _ s⟩
  · have hin : s.base + (x.val + 1) ≤ 4096 := by unfold State.base; omega
    exact ⟨_, exec_regDump_inRange hin, fun k hk => readMem_dumped s hk s.base,
      length_regsUpTo s x ▸ frame_stored s s.base (s.regsUpTo x)⟩

/-- Settles O30: reg-load puts the bytes into the registers one by one, and writes nothing else. -/
theorem regLoadFillsRegisters : Obligations.RegLoadFillsRegisters := by
  refine fun x s => ⟨decodeWord_regLoad x, fun h => ?_, fun h => ?_⟩
  · have hout : ¬s.base + (x.val + 1) ≤ 4096 := by unfold State.base; omega
    exact ⟨_, exec_regLoad_outOfRange hout, faulted_enterFault _ s⟩
  · have hin : s.base + (x.val + 1) ≤ 4096 := by unfold State.base; omega
    refine ⟨_, exec_regLoad_inRange hin, fun k hk => ?_, fun k hk => ?_, frame_setV s _⟩
    · rw [reg_loaded, if_pos (by omega)]
    · rw [reg_loaded, if_neg (by omega)]

/-- reg-dump, outside the fault state: the registers are stored, and all of them lie below 4096. -/
theorem exec_regDump_next {s t : State} {x : Reg} (h : exec (.regDump x) s = .next t) (hf : t.fault = false) :
    t = stored s s.base (s.regsUpTo x) ∧ s.base + (x.val + 1) ≤ 4096 := by
  obtain ⟨ht, hnil | hin⟩ := storeBytes_next h hf
  · exact absurd hnil (regsUpTo_ne_nil s x)
  · exact ⟨ht, by rwa [length_regsUpTo] at hin⟩

/-- Settles O31: reg-load reads where reg-dump wrote, since neither changes I. -/
theorem dumpThenLoadRestores : Obligations.DumpThenLoadRestores := by
  intro x s t u hdump hf hmem hfont hi
  obtain ⟨rfl, hin⟩ := exec_regDump_next hdump hf
  have hbase : u.base = s.base := congrArg BitVec.toNat hi
  have hread : u.readMem = (stored s s.base (s.regsUpTo x)).readMem := by
    funext a
    rw [State.readMem, State.readMem, hfont, hmem]
  refine ⟨_, exec_regLoad_inRange (hbase ▸ hin), fun k hk => ?_, fun k hk => ?_⟩
  · rw [reg_loaded, if_pos (by omega), hbase, hread, readMem_dumped s hk]
  · rw [reg_loaded, if_neg (by omega)]

/-- Settles O32: a store changes memory at once, and a fetch reads memory. -/
theorem storeSeenByNextFetch : Obligations.StoreSeenByNextFetch := by
  intro x k k' s t hdump hf hk' hx hfetch hpc
  obtain ⟨rfl, -⟩ := exec_regDump_next hdump hf
  rw [fetch_inRange (s := stored s s.base (s.regsUpTo x)) hfetch]
  have hfirst := readMem_dumped s (by omega : k.val ≤ x.val) s.base
  have hsecond := readMem_dumped s hx s.base
  rw [hk', ← Nat.add_assoc] at hsecond
  have hword : (stored s s.base (s.regsUpTo x)).wordAt s.pc.toNat = wordOfBytes (s.reg k) (s.reg k') := by
    rw [State.wordAt, hpc, hfirst, hsecond]
  exact congrArg (fun w => Except.ok (w, _)) hword

end Sys2Proof.Proofs

/-! PROOFS. Display (43_display.md): draw, its cells and its collision. -/

namespace Sys2Proof.Proofs
open Sys2Proof.Machine

/-! ### What draw leaves -/

/-- The state after draw has painted its sprite. -/
def drawn (s : State) (x y : Reg) (n : Nat) : State :=
  s.painted (spriteCells (s.reg x) (s.reg y) 0 ((List.range' s.base n).map s.readMem))

/-- draw, outside the fault state: its rows lie below 4096, and it has painted its sprite. -/
theorem exec_draw_next {s t : State} {x y : Reg} {n : Nat} (h : exec (.draw x y n) s = .next t) (hf : t.fault = false) :
    (n = 0 ∨ s.base + n ≤ 4096) ∧ t = drawn s x y n := by
  by_cases hin : n = 0 ∨ s.base + n ≤ 4096
  · cases (execDraw_inRange x y hin).symm.trans h
    exact ⟨hin, rfl⟩
  · cases (execDraw_outOfRange x y hin).symm.trans h
    cases hf

/-- A cell is lit after draw iff it was lit or the sprite covers it. -/
theorem cell_drawn (s : State) (x y : Reg) (n : Nat) (k : Fin 2048) :
    (drawn s x y n).cell k = true ↔ s.cell k = true ∨ SpriteCovers s x y n k := by
  rw [← mem_drawCells]
  simp only [State.cell, drawn, State.painted, setReg_fb, cellOf_paint, Bool.or_eq_true, decide_eq_true_eq]
  exact or_comm

theorem flagByte_eq_zero_or_one (c : Bool) : flagByte c = 0 ∨ flagByte c = 1 := by
  cases c with
  | false => exact .inl rfl
  | true => exact .inr rfl

theorem flagByte_eq_one_iff (c : Bool) : flagByte c = 1 ↔ c = true := by
  cases c with
  | false => decide
  | true => decide

theorem reg_vf_drawn_zero_or_one (s : State) (x y : Reg) (n : Nat) :
    (drawn s x y n).reg vf = 0 ∨ (drawn s x y n).reg vf = 1 := by
  simp only [drawn, State.painted, reg_setReg_self, collisionFlag]
  exact flagByte_eq_zero_or_one _

/-- With at most 15 rows no cell is reached twice, so the flag is whether a covered cell was lit before (R141(d)). -/
theorem reg_vf_drawn_eq_one_iff (s : State) (x y : Reg) {n : Nat} (hn : n < 16) :
    (drawn s x y n).reg vf = 1 ↔ ∃ k, SpriteCovers s x y n k ∧ s.cell k = true := by
  have hrows : ((List.range' s.base n).map s.readMem).length ≤ 32 := by
    rw [List.length_map, List.length_range']; omega
  have hnodup := nodup_spriteCells (s.reg x) (s.reg y) _ 0 hrows
  simp only [drawn, State.painted, reg_setReg_self, collisionFlag, flagByte_eq_one_iff, hit_paint _ hnodup,
    Bool.false_or, List.any_eq_true, mem_drawCells, State.cell]

theorem reg_vf_drawn_eq_zero (s : State) (x y : Reg) {n : Nat} (hn : n < 16)
    (h : ¬∃ k, SpriteCovers s x y n k ∧ s.cell k = true) : (drawn s x y n).reg vf = 0 :=
  (reg_vf_drawn_zero_or_one s x y n).resolve_right fun hone => h ((reg_vf_drawn_eq_one_iff s x y hn).1 hone)

theorem frame_drawn (s : State) (x y : Reg) (n : Nat) :
    OnlyPieces [.display] s (drawn s x y n) ∧ OnlyRegs [vf] s (drawn s x y n) ∧ SameMemory s (drawn s x y n) := by
  refine ⟨fun p hp => ?_, fun j hj => ?_, fun _ => rfl⟩
  · cases p with
    | display => simp at hp
    | _ => rfl
  · exact reg_setReg_ne (by simpa using hj) _ _

/-- What a sprite covers depends on its coordinates, its address and its bytes alone. -/
theorem spriteCovers_congr {s t : State} {x y : Reg} (hx : t.reg x = s.reg x) (hy : t.reg y = s.reg y)
    (hbase : t.base = s.base) (hmem : SameMemory s t) (n : Nat) (k : Fin 2048) :
    SpriteCovers t x y n k ↔ SpriteCovers s x y n k := by
  simp only [SpriteCovers, hx, hy, hbase, show t.readMem = s.readMem from funext hmem]

/-! ### The obligations -/

/-- Settles O34: draw paints the cells its sprite covers, and then writes VF. -/
theorem drawSetsCellsAndCollision : Obligations.DrawSetsCellsAndCollision := by
  refine fun x y n s => ⟨decodeWord_draw x y n, fun h => ?_, fun h => ?_⟩
  · have hout : ¬(n.toNat = 0 ∨ s.base + n.toNat ≤ 4096) := by unfold State.base; omega
    exact ⟨_, execDraw_outOfRange x y hout, faulted_enterFault _ s⟩
  · have hin : n.toNat = 0 ∨ s.base + n.toNat ≤ 4096 := by unfold State.base; omega
    exact ⟨_, execDraw_inRange x y hin, cell_drawn s x y n.toNat, (reg_vf_drawn_eq_one_iff s x y n.isLt).2,
      reg_vf_drawn_eq_zero s x y n.isLt, frame_drawn s x y n.toNat⟩

/-- Settles O35: after the first draw every covered cell is lit, so the second one lights none and meets all. -/
theorem drawingTwiceCollides : Obligations.DrawingTwiceCollides := by
  intro x y n s t hn hdraw hf hx hy
  obtain ⟨hin, rfl⟩ := exec_draw_next hdraw hf
  obtain ⟨-, -, hmem⟩ := frame_drawn s x y n
  have hcovers := spriteCovers_congr hx hy rfl hmem n
  have hlit (k : Fin 2048) (hk : SpriteCovers s x y n k) : (drawn s x y n).cell k = true :=
    (cell_drawn s x y n k).2 (.inr hk)
  refine ⟨_, execDraw_inRange x y hin, fun k => ?_, fun ⟨k, hk⟩ => ?_, fun hnone => ?_⟩
  · refine Bool.eq_iff_iff.2 ((cell_drawn _ x y n k).trans ?_)
    rw [hcovers]
    exact or_iff_left_of_imp (hlit k)
  · exact (reg_vf_drawn_eq_one_iff _ x y hn).2 ⟨k, (hcovers k).2 hk, hlit k hk⟩
  · exact reg_vf_drawn_eq_zero _ x y hn fun ⟨k, hk, _⟩ => hnone ⟨k, (hcovers k).1 hk⟩

end Sys2Proof.Proofs

/-! PROOFS. Keys (44_keys_timers.md): the key skips and wait-key, each an update that depends on one key. -/

namespace Sys2Proof.Proofs
open Sys2Proof.Machine

/-! ### The key instructions, as updates that depend on the key numbered `V[x]` -/

/-- wait-key's update: past the instruction with the key down, back to it with the key up. -/
def waitIf (s : State) (down : Bool) : State := if down then s else s.rewind

theorem exec_skipKeyPressed (x : Reg) (s : State) :
    exec (.skipKeyPressed x) s = orRaise s (withKey s x fun down => s.skipIf down) := rfl

theorem exec_skipKeyNotPressed (x : Reg) (s : State) :
    exec (.skipKeyNotPressed x) s = orRaise s (withKey s x fun down => s.skipIf !down) := rfl

theorem exec_waitKey (x : Reg) (s : State) : exec (.waitKey x) s = orRaise s (withKey s x (waitIf s)) := rfl

/-- With the index in range, the update of that key's flag. -/
theorem orRaise_withKey_inRange {s : State} {x : Reg} {k : Fin 16} (h : (s.reg x).toNat = k.val) (f : Bool → State) :
    orRaise s (withKey s x f) = .next (f (s.keyFlag k)) := by
  have hk : (⟨(s.reg x).toNat, h ▸ k.isLt⟩ : Fin 16) = k := Fin.ext h
  rw [withKey_inRange (h ▸ k.isLt), orRaise_ok, hk]

/-- With the index out of range, the fault. -/
theorem orRaise_withKey_outOfRange {s : State} {x : Reg} (h : (s.reg x).toNat ≥ 16) (f : Bool → State) :
    orRaise s (withKey s x f) = .next (enterFault .keyIndexRange s) := by
  rw [withKey_outOfRange (Nat.not_lt.2 h), orRaise_error]

@[simp] theorem waitIf_pc (s : State) (down : Bool) : (waitIf s down).pc = if down = true then s.pc else s.pc - 2 := by
  cases down <;> rfl

theorem frame_waitIf (s : State) (down : Bool) : OnlyPc s (waitIf s down) := by
  cases down
  · exact frame_rewind s
  · exact frame_self s

/-! ### The obligations -/

/-- A key instruction with its index out of range. -/
theorem faulted_of_exec_withKey {i : Instr} {s : State} {x : Reg} {f : Bool → State}
    (hexec : exec i s = orRaise s (withKey s x f)) (h : (s.reg x).toNat ≥ 16) :
    ∃ t, exec i s = .next t ∧ Faulted .keyIndexRange s t :=
  ⟨_, hexec.trans (orRaise_withKey_outOfRange h f), faulted_enterFault _ s⟩

/-- Settles O37: both skips are `skipIf` on the flag of one key. -/
theorem keySkips : Obligations.KeySkips := by
  refine fun x s => ⟨decodeWord_skipKeyPressed x, decodeWord_skipKeyNotPressed x, fun h => ?_, fun k hk => ?_⟩
  · exact ⟨faulted_of_exec_withKey (exec_skipKeyPressed x s) h, faulted_of_exec_withKey (exec_skipKeyNotPressed x s) h⟩
  · constructor
    · exact pc_of_exec_skipIf ((exec_skipKeyPressed x s).trans (orRaise_withKey_inRange hk _)) Iff.rfl
    · exact pc_of_exec_skipIf ((exec_skipKeyNotPressed x s).trans (orRaise_withKey_inRange hk _))
        (iff_of_eq (Bool.not_eq_true' _))

/-- Settles O38: wait-key is `waitIf` on the flag of one key. -/
theorem waitKeyTestsOneKey : Obligations.WaitKeyTestsOneKey := by
  refine fun x s => ⟨decodeWord_waitKey x, faulted_of_exec_withKey (exec_waitKey x s), fun k hk => ?_⟩
  exact ⟨_, (exec_waitKey x s).trans (orRaise_withKey_inRange hk _), waitIf_pc s _, frame_waitIf s _⟩

end Sys2Proof.Proofs

/-! PROOFS. What an instruction can do, said once: it raises one of the faults of 60_exceptions.md R181, or it completes. An
instruction that completes leaves the key flags, the latch and what stands outside the core as they are, and depends on
nothing outside the core but the font and, for random, the byte of the `Tick` (10_state.md R25). -/

namespace Sys2Proof.Proofs
open Sys2Proof.Machine

/-! ### Faults -/

/-- The condition and the cause of each fault an instruction can raise (R181). -/
inductive FaultsWith (s : State) : Instr → Fault → Prop
  | ret (h : s.sp.val = 0) : FaultsWith s .ret .stackUnderflow
  | call (nnn : Addr12) (h : s.sp.val = 16) : FaultsWith s (.call nnn) .stackOverflow
  | draw (x y : Reg) (n : Nat) (h : ¬(n = 0 ∨ s.base + n ≤ 4096)) : FaultsWith s (.draw x y n) .dataAddrRange
  | bcdStore (x : Reg) (h : ¬s.base + 3 ≤ 4096) : FaultsWith s (.bcdStore x) .dataAddrRange
  | regDump (x : Reg) (h : ¬s.base + (x.val + 1) ≤ 4096) : FaultsWith s (.regDump x) .dataAddrRange
  | regLoad (x : Reg) (h : ¬s.base + (x.val + 1) ≤ 4096) : FaultsWith s (.regLoad x) .dataAddrRange
  | skipKeyPressed (x : Reg) (h : (s.reg x).toNat ≥ 16) : FaultsWith s (.skipKeyPressed x) .keyIndexRange
  | skipKeyNotPressed (x : Reg) (h : (s.reg x).toNat ≥ 16) : FaultsWith s (.skipKeyNotPressed x) .keyIndexRange
  | waitKey (x : Reg) (h : (s.reg x).toNat ≥ 16) : FaultsWith s (.waitKey x) .keyIndexRange

theorem exec_of_faultsWith {s : State} {i : Instr} {c : Fault} (h : FaultsWith s i c) :
    exec i s = .next (enterFault c s) := by
  cases h with
  | ret h => exact exec_ret_empty h
  | call nnn h => exact exec_call_full h nnn
  | draw x y n h => exact execDraw_outOfRange x y h
  | bcdStore x h => exact exec_bcdStore_outOfRange x h
  | regDump x h => exact exec_regDump_outOfRange h
  | regLoad x h => exact exec_regLoad_outOfRange h
  | skipKeyPressed x h => exact orRaise_withKey_outOfRange h _
  | skipKeyNotPressed x h => exact orRaise_withKey_outOfRange h _
  | waitKey x h => exact orRaise_withKey_outOfRange h _

/-- What stands outside the core does not decide about a fault. -/
theorem faultsWith_setEnv {s : State} {i : Instr} {c : Fault} (h : FaultsWith s i c) (e : Env) :
    FaultsWith { s with env := e } i c := by
  cases h with
  | ret h => exact .ret h
  | call nnn h => exact .call nnn h
  | draw x y n h => exact .draw x y n h
  | bcdStore x h => exact .bcdStore x h
  | regDump x h => exact .regDump x h
  | regLoad x h => exact .regLoad x h
  | skipKeyPressed x h => exact .skipKeyPressed x h
  | skipKeyNotPressed x h => exact .skipKeyNotPressed x h
  | waitKey x h => exact .waitKey x h

/-! ### Completion -/

/-- The instruction takes `s` to `t` without a fault, and so it does with any other environment of the same font (and
the same byte, if it is random), which it leaves as it is. -/
structure Completes (i : Instr) (s t : State) : Prop where
  env : t.env = s.env
  fault : t.fault = s.fault
  cause : t.cause = s.cause
  key : t.key = s.key
  answers : ∀ e : Env, e.font = s.env.font → ((∃ x nn, i = .random x nn) → e.rnd = s.env.rnd) →
    exec i { s with env := e } = .next { t with env := e }

theorem Completes.exec {i : Instr} {s t : State} (h : Completes i s t) : exec i s = .next t := by
  have hself : ({ t with env := s.env } : State) = t := h.env ▸ rfl
  exact (h.answers s.env rfl fun _ => rfl).trans (congrArg _ hself)

/-- An instruction that reads nothing outside the core. -/
theorem completes_of_answers {i : Instr} {s t : State}
    (h : ∀ e : Env, exec i { s with env := e } = .next { t with env := e }) (henv : t.env = s.env := by rfl)
    (hfault : t.fault = s.fault := by rfl) (hcause : t.cause = s.cause := by rfl) (hkey : t.key = s.key := by rfl) :
    Completes i s t :=
  ⟨henv, hfault, hcause, hkey, fun e _ _ => h e⟩

theorem completes_skipIf {i : Instr} {s : State} (c : Bool)
    (h : ∀ e : Env, exec i { s with env := e } = .next (({ s with env := e } : State).skipIf c)) :
    Completes i s (s.skipIf c) := by
  cases c with
  | false => exact completes_of_answers h
  | true => exact completes_of_answers h

theorem completes_waitIf {i : Instr} {s : State} (c : Bool)
    (h : ∀ e : Env, exec i { s with env := e } = .next (waitIf { s with env := e } c)) :
    Completes i s (waitIf s c) := by
  cases c with
  | false => exact completes_of_answers h
  | true => exact completes_of_answers h

/-- Memory is stored and read by the font, which tells what an unlisted address reads as. -/
theorem completes_stored {i : Instr} {s : State} (a : Nat) (bs : List Byte)
    (h : ∀ e : Env, exec i { s with env := e } = .next (stored { s with env := e } a bs)) :
    Completes i s (stored s a bs) := by
  refine ⟨rfl, rfl, rfl, rfl, fun e hfont _ => (h e).trans ?_⟩
  simp only [stored, hfont]

theorem readMem_setEnv {s : State} {e : Env} (hfont : e.font = s.env.font) :
    ({ s with env := e } : State).readMem = s.readMem := by
  funext a
  simp only [State.readMem, hfont]

theorem completes_drawn {s : State} {x y : Reg} {n : Nat} (h : n = 0 ∨ s.base + n ≤ 4096) :
    Completes (.draw x y n) s (drawn s x y n) := by
  refine ⟨rfl, rfl, rfl, rfl, fun e hfont _ => (execDraw_inRange (s := { s with env := e }) x y h).trans ?_⟩
  rw [readMem_setEnv hfont]
  rfl

theorem completes_loaded {s : State} {x : Reg} (h : s.base + (x.val + 1) ≤ 4096) :
    Completes (.regLoad x) s { s with v := loadRegs s.v 0 ((List.range' s.base (x.val + 1)).map s.readMem) } := by
  refine ⟨rfl, rfl, rfl, rfl, fun e hfont _ => (exec_regLoad_inRange (s := { s with env := e }) h).trans ?_⟩
  rw [readMem_setEnv hfont]
  rfl

/-- A key instruction faults, or completes with the update of its key's flag. -/
theorem keyIndex_cases (s : State) (x : Reg) : (s.reg x).toNat ≥ 16 ∨ ∃ k : Fin 16, (s.reg x).toNat = k.val := by
  by_cases h : (s.reg x).toNat < 16
  · exact .inr ⟨⟨_, h⟩, rfl⟩
  · exact .inl (Nat.not_lt.1 h)

/-- An instruction faults or completes. -/
theorem exec_cases (i : Instr) (s : State) : (∃ c, FaultsWith s i c) ∨ ∃ t, Completes i s t := by
  cases i with
  | ret =>
    by_cases h : s.sp.val = 0
    · exact .inl ⟨_, .ret h⟩
    · exact .inr ⟨popped s, completes_of_answers fun e => exec_ret_live (s := { s with env := e }) h⟩
  | call nnn =>
    by_cases h : s.sp.val < 16
    · exact .inr ⟨called s nnn h, completes_of_answers fun e =>
        exec_call_room (s := { s with env := e }) h nnn⟩
    · exact .inl ⟨_, .call nnn (by omega)⟩
  | draw x y n =>
    by_cases h : n = 0 ∨ s.base + n ≤ 4096
    · exact .inr ⟨_, completes_drawn h⟩
    · exact .inl ⟨_, .draw x y n h⟩
  | bcdStore x =>
    by_cases h : s.base + 3 ≤ 4096
    · exact .inr ⟨_, completes_stored s.base (bcdDigits (s.reg x)) fun e =>
        exec_bcdStore_inRange (s := { s with env := e }) x h⟩
    · exact .inl ⟨_, .bcdStore x h⟩
  | regDump x =>
    by_cases h : s.base + (x.val + 1) ≤ 4096
    · exact .inr ⟨_, completes_stored s.base (s.regsUpTo x) fun e => exec_regDump_inRange (s := { s with env := e }) h⟩
    · exact .inl ⟨_, .regDump x h⟩
  | regLoad x =>
    by_cases h : s.base + (x.val + 1) ≤ 4096
    · exact .inr ⟨_, completes_loaded h⟩
    · exact .inl ⟨_, .regLoad x h⟩
  | skipKeyPressed x =>
    obtain h | ⟨k, hk⟩ := keyIndex_cases s x
    · exact .inl ⟨_, .skipKeyPressed x h⟩
    · exact .inr ⟨_, completes_skipIf (s.keyFlag k) fun e =>
        orRaise_withKey_inRange (s := { s with env := e }) hk _⟩
  | skipKeyNotPressed x =>
    obtain h | ⟨k, hk⟩ := keyIndex_cases s x
    · exact .inl ⟨_, .skipKeyNotPressed x h⟩
    · exact .inr ⟨_, completes_skipIf (!s.keyFlag k) fun e =>
        orRaise_withKey_inRange (s := { s with env := e }) hk _⟩
  | waitKey x =>
    obtain h | ⟨k, hk⟩ := keyIndex_cases s x
    · exact .inl ⟨_, .waitKey x h⟩
    · exact .inr ⟨_, completes_waitIf (s.keyFlag k) fun e =>
        orRaise_withKey_inRange (s := { s with env := e }) hk _⟩
  | skipEqImm x nn => exact .inr ⟨_, completes_skipIf (s.reg x == nn) fun _ => rfl⟩
  | skipNeqImm x nn => exact .inr ⟨_, completes_skipIf (s.reg x != nn) fun _ => rfl⟩
  | skipEqReg x y => exact .inr ⟨_, completes_skipIf (s.reg x == s.reg y) fun _ => rfl⟩
  | skipNeqReg x y => exact .inr ⟨_, completes_skipIf (s.reg x != s.reg y) fun _ => rfl⟩
  | random x nn =>
    refine .inr ⟨s.setReg x (s.env.rnd &&& nn), rfl, rfl, rfl, rfl, fun e _ hrnd => ?_⟩
    rw [← hrnd ⟨x, nn, rfl⟩]
    rfl
  | clearScreen => exact .inr ⟨{ s with fb := clearCells }, completes_of_answers fun _ => rfl⟩
  | jump nnn => exact .inr ⟨s.jumpTo (zext16 nnn), completes_of_answers fun _ => rfl⟩
  | jumpOffset nnn => exact .inr ⟨s.jumpTo (zext16 (s.reg 0) + zext16 nnn), completes_of_answers fun _ => rfl⟩
  | setImm x nn => exact .inr ⟨s.setReg x nn, completes_of_answers fun _ => rfl⟩
  | addImm x nn => exact .inr ⟨s.setReg x (s.reg x + nn), completes_of_answers fun _ => rfl⟩
  | setReg x y => exact .inr ⟨s.setReg x (s.reg y), completes_of_answers fun _ => rfl⟩
  | orReg x y => exact .inr ⟨s.setReg x (s.reg x ||| s.reg y), completes_of_answers fun _ => rfl⟩
  | andReg x y => exact .inr ⟨s.setReg x (s.reg x &&& s.reg y), completes_of_answers fun _ => rfl⟩
  | xorReg x y => exact .inr ⟨s.setReg x (s.reg x ^^^ s.reg y), completes_of_answers fun _ => rfl⟩
  | addReg x y =>
    exact .inr ⟨s.setRegFlag x (s.reg x + s.reg y) (carryFlag (s.reg x) (s.reg y)), completes_of_answers fun _ => rfl⟩
  | subReg x y =>
    exact .inr ⟨s.setRegFlag x (s.reg x - s.reg y) (noBorrowFlag (s.reg x) (s.reg y)),
      completes_of_answers fun _ => rfl⟩
  | subnReg x y =>
    exact .inr ⟨s.setRegFlag x (s.reg y - s.reg x) (noBorrowFlag (s.reg y) (s.reg x)),
      completes_of_answers fun _ => rfl⟩
  | shr x => exact .inr ⟨s.setRegFlag x (s.reg x >>> 1) (shrFlag (s.reg x)), completes_of_answers fun _ => rfl⟩
  | shl x => exact .inr ⟨s.setRegFlag x (s.reg x <<< 1) (shlFlag (s.reg x)), completes_of_answers fun _ => rfl⟩
  | setIndex nnn => exact .inr ⟨{ s with i := zext16 nnn }, completes_of_answers fun _ => rfl⟩
  | addToIndex x => exact .inr ⟨{ s with i := s.i + zext16 (s.reg x) }, completes_of_answers fun _ => rfl⟩
  | fontCharAddr x => exact .inr ⟨{ s with i := zext16 (s.reg x) * 5 }, completes_of_answers fun _ => rfl⟩
  | getDelay x => exact .inr ⟨s.setReg x s.dt, completes_of_answers fun _ => rfl⟩
  | setDelay x => exact .inr ⟨{ s with dt := s.reg x }, completes_of_answers fun _ => rfl⟩
  | setSound x => exact .inr ⟨{ s with st := s.reg x }, completes_of_answers fun _ => rfl⟩

/-- An instruction that answers a state outside the fault state has completed. -/
theorem completes_of_exec {i : Instr} {s t : State} (h : exec i s = .next t) (hf : t.fault = false) :
    Completes i s t := by
  obtain ⟨c, hc⟩ | ⟨u, hu⟩ := exec_cases i s
  · cases (exec_of_faultsWith hc).symm.trans h
    cases hf
  · cases hu.exec.symm.trans h
    exact hu

/-- An instruction that answers a fault state from outside it has raised its fault. -/
theorem faultsWith_of_exec {i : Instr} {s t : State} (hs : s.fault = false) (h : exec i s = .next t)
    (hf : t.fault = true) : ∃ c, FaultsWith s i c ∧ t = enterFault c s := by
  obtain ⟨c, hc⟩ | ⟨u, hu⟩ := exec_cases i s
  · cases (exec_of_faultsWith hc).symm.trans h
    exact ⟨c, hc, rfl⟩
  · cases hu.exec.symm.trans h
    cases hs.symm.trans (hu.fault.symm.trans hf)

/-! ### The obligation -/

/-- Settles O42: an instruction that ends in the fault state has met the condition of one of R181's faults. -/
theorem faultsAndTheirCauses : Obligations.FaultsAndTheirCauses := by
  intro i s t hs hexec hf
  obtain ⟨c, hc, rfl⟩ := faultsWith_of_exec hs hexec hf
  cases hc with
  | ret h => exact .inl ⟨rfl, h, rfl⟩
  | call nnn h => exact .inr (.inl ⟨⟨nnn, rfl⟩, h, rfl⟩)
  | draw x y n h =>
    unfold State.base at h
    exact .inr (.inr (.inl ⟨⟨x, y, n, rfl, by omega, by omega⟩, rfl⟩))
  | bcdStore x h => exact .inr (.inr (.inr (.inl ⟨⟨x, rfl, Nat.not_le.1 h⟩, rfl⟩)))
  | regDump x h => exact .inr (.inr (.inr (.inr (.inl ⟨⟨x, .inl rfl, Nat.not_le.1 h⟩, rfl⟩))))
  | regLoad x h => exact .inr (.inr (.inr (.inr (.inl ⟨⟨x, .inr rfl, Nat.not_le.1 h⟩, rfl⟩))))
  | skipKeyPressed x h => exact .inr (.inr (.inr (.inr (.inr ⟨⟨x, .inl rfl, h⟩, rfl⟩))))
  | skipKeyNotPressed x h => exact .inr (.inr (.inr (.inr (.inr ⟨⟨x, .inr (.inl rfl), h⟩, rfl⟩))))
  | waitKey x h => exact .inr (.inr (.inr (.inr (.inr ⟨⟨x, .inr (.inr rfl), h⟩, rfl⟩))))

end Sys2Proof.Proofs

/-! PROOFS. Who writes what (10_state.md sections 1 to 8): a table of the pieces of state each instruction writes, the
instructions' frames, and what the flag writers leave in VF. -/

namespace Sys2Proof.Proofs
open Sys2Proof.Machine

/-! ### The table of writers -/

/-- The pieces an instruction may write, PC beside the fetch advance (R14, R17, R19 to R21, R23). -/
def writtenPieces : Instr → List Piece
  | .ret => [.sp, .pc]
  | .call _ => [.stack, .sp, .pc]
  | .jump _ | .jumpOffset _ => [.pc]
  | .skipEqImm _ _ | .skipNeqImm _ _ | .skipEqReg _ _ | .skipNeqReg _ _ => [.pc]
  | .skipKeyPressed _ | .skipKeyNotPressed _ | .waitKey _ => [.pc]
  | .setIndex _ | .addToIndex _ | .fontCharAddr _ => [.index]
  | .clearScreen | .draw _ _ _ => [.display]
  | .setDelay _ => [.delay]
  | .setSound _ => [.sound]
  | .setImm _ _ | .addImm _ _ | .random _ _ | .getDelay _ | .setReg _ _ | .orReg _ _ | .andReg _ _ | .xorReg _ _ => []
  | .addReg _ _ | .subReg _ _ | .subnReg _ _ | .shr _ | .shl _ | .bcdStore _ | .regDump _ | .regLoad _ => []

/-- The general registers an instruction may write (R11, R12). -/
def writtenRegs : Instr → List Reg
  | .setImm x _ | .addImm x _ | .random x _ | .getDelay x => [x]
  | .setReg x _ | .orReg x _ | .andReg x _ | .xorReg x _ => [x]
  | .addReg x _ | .subReg x _ | .subnReg x _ | .shr x | .shl x => [x, vf]
  | .draw _ _ _ => [vf]
  | .regLoad x => (List.finRange 16).filter fun j => j.val ≤ x.val
  | _ => []

/-- The instructions that write memory (20_memory.md section 5). -/
def storesBytes : Instr → Bool
  | .bcdStore _ | .regDump _ => true
  | _ => false

/-- Nothing but what the table names may differ. -/
structure Framed (i : Instr) (s t : State) : Prop where
  pieces : OnlyPieces (writtenPieces i) s t
  regs : OnlyRegs (writtenRegs i) s t
  memory : storesBytes i = false → t.mem = s.mem

theorem Framed.of_frame {i : Instr} {s t : State}
    (h : OnlyPieces (writtenPieces i) s t ∧ OnlyRegs (writtenRegs i) s t ∧ SameMemory s t)
    (hmem : t.mem = s.mem := by rfl) : Framed i s t :=
  ⟨h.1, h.2.1, fun _ => hmem⟩

theorem Framed.of_stored {i : Instr} {s : State} {bs : List Byte} (hp : writtenPieces i = [] := by rfl)
    (hr : writtenRegs i = [] := by rfl) (hs : storesBytes i = true := by rfl) : Framed i s (stored s s.base bs) := by
  obtain ⟨hpieces, hregs, -⟩ := frame_stored s s.base bs
  exact ⟨hp ▸ hpieces, hr ▸ hregs, fun h => absurd (hs.symm.trans h) (by decide)⟩

theorem Framed.of_skipIf {i : Instr} {s : State} {c : Bool} (hp : writtenPieces i = [.pc] := by rfl)
    (hr : writtenRegs i = [] := by rfl) : Framed i s (s.skipIf c) := by
  obtain ⟨hpieces, hregs, -⟩ := frame_skipIf s c
  exact ⟨hp ▸ hpieces, hr ▸ hregs, fun _ => skipIf_mem s c⟩

theorem Framed.of_loaded (s : State) (x : Reg) (f : Nat → Byte) :
    Framed (.regLoad x) s { s with v := loadRegs s.v 0 ((List.range' s.base (x.val + 1)).map f) } := by
  obtain ⟨hpieces, -⟩ := frame_setV s (loadRegs s.v 0 ((List.range' s.base (x.val + 1)).map f))
  refine ⟨hpieces, fun j hj => ?_, fun _ => rfl⟩
  have hout : ¬j.val < x.val + 1 := fun hlt =>
    hj (List.mem_filter.2 ⟨List.mem_finRange j, decide_eq_true (Nat.le_of_lt_succ hlt)⟩)
  rw [reg_loaded, if_neg hout]

/-- Outside the fault state an instruction writes what the table names. -/
theorem framed_of_exec {i : Instr} {s t : State} (h : exec i s = .next t) (hf : t.fault = false) : Framed i s t := by
  cases i with
  | clearScreen => cases h; exact .of_frame (frame_setFb s _)
  | ret => obtain ⟨-, rfl⟩ := execRet_next h hf; exact .of_frame (frame_popped s)
  | call nnn => obtain ⟨hroom, rfl⟩ := execCall_next h hf; exact .of_frame (frame_called s nnn hroom)
  | jump nnn => cases h; exact .of_frame (frame_jumpTo s _)
  | jumpOffset nnn => cases h; exact .of_frame (frame_jumpTo s _)
  | skipEqImm x nn => cases h; exact .of_skipIf
  | skipNeqImm x nn => cases h; exact .of_skipIf
  | skipEqReg x y => cases h; exact .of_skipIf
  | skipNeqReg x y => cases h; exact .of_skipIf
  | skipKeyPressed x => obtain ⟨hk, rfl⟩ := withKey_next h hf; exact .of_skipIf
  | skipKeyNotPressed x => obtain ⟨hk, rfl⟩ := withKey_next h hf; exact .of_skipIf
  | waitKey x =>
    obtain ⟨hk, rfl⟩ := withKey_next h hf
    exact .of_frame (frame_waitIf s _) (by split <;> rfl)
  | setImm x nn => cases h; exact .of_frame (frame_setReg s x _)
  | addImm x nn => cases h; exact .of_frame (frame_setReg s x _)
  | setReg x y => cases h; exact .of_frame (frame_setReg s x _)
  | orReg x y => cases h; exact .of_frame (frame_setReg s x _)
  | andReg x y => cases h; exact .of_frame (frame_setReg s x _)
  | xorReg x y => cases h; exact .of_frame (frame_setReg s x _)
  | random x nn => cases h; exact .of_frame (frame_setReg s x _)
  | getDelay x => cases h; exact .of_frame (frame_setReg s x _)
  | addReg x y => cases h; exact .of_frame (frame_setRegFlag s x _ _)
  | subReg x y => cases h; exact .of_frame (frame_setRegFlag s x _ _)
  | subnReg x y => cases h; exact .of_frame (frame_setRegFlag s x _ _)
  | shr x => cases h; exact .of_frame (frame_setRegFlag s x _ _)
  | shl x => cases h; exact .of_frame (frame_setRegFlag s x _ _)
  | setIndex nnn => cases h; exact .of_frame (frame_setI s _)
  | addToIndex x => cases h; exact .of_frame (frame_setI s _)
  | fontCharAddr x => cases h; exact .of_frame (frame_setI s _)
  | setDelay x => cases h; exact .of_frame (frame_setDt s _)
  | setSound x => cases h; exact .of_frame (frame_setSt s _)
  | draw x y n => obtain ⟨-, rfl⟩ := exec_draw_next h hf; exact .of_frame (frame_drawn s x y n)
  | bcdStore x => obtain ⟨rfl, -⟩ := storeBytes_next h hf; exact .of_stored
  | regDump x => obtain ⟨rfl, -⟩ := storeBytes_next h hf; exact .of_stored
  | regLoad x => obtain ⟨-, rfl⟩ := execRegLoad_next h hf; exact .of_loaded s x _

theorem Framed.mem_pieces {i : Instr} {s t : State} (h : Framed i s t) {p : Piece} (hp : ¬p.Same s t) :
    p ∈ writtenPieces i :=
  by_contra fun hn => hp (h.pieces p hn)

theorem Framed.mem_regs {i : Instr} {s t : State} (h : Framed i s t) {j : Reg} (hj : t.reg j ≠ s.reg j) :
    j ∈ writtenRegs i :=
  by_contra fun hn => hj (h.regs j hn)

/-! ### The table, read by column -/

theorem mem_writtenRegs {i : Instr} {j : Reg} (h : j ∈ writtenRegs i) :
    (∃ nn, i = .setImm j nn ∨ i = .addImm j nn ∨ i = .random j nn) ∨
    (∃ y, i = .setReg j y ∨ i = .orReg j y ∨ i = .andReg j y ∨ i = .xorReg j y) ∨
    (∃ x y, (i = .addReg x y ∨ i = .subReg x y ∨ i = .subnReg x y) ∧ (j = x ∨ j = vf)) ∨
    (∃ x, (i = .shr x ∨ i = .shl x) ∧ (j = x ∨ j = vf)) ∨ ((∃ x y n, i = .draw x y n) ∧ j = vf) ∨
    i = .getDelay j ∨ ∃ x : Reg, i = .regLoad x ∧ j.val ≤ x.val := by
  cases i with
  | setImm x nn => cases List.mem_singleton.1 h; exact .inl ⟨nn, .inl rfl⟩
  | addImm x nn => cases List.mem_singleton.1 h; exact .inl ⟨nn, .inr (.inl rfl)⟩
  | random x nn => cases List.mem_singleton.1 h; exact .inl ⟨nn, .inr (.inr rfl)⟩
  | setReg x y => cases List.mem_singleton.1 h; exact .inr (.inl ⟨y, .inl rfl⟩)
  | orReg x y => cases List.mem_singleton.1 h; exact .inr (.inl ⟨y, .inr (.inl rfl)⟩)
  | andReg x y => cases List.mem_singleton.1 h; exact .inr (.inl ⟨y, .inr (.inr (.inl rfl))⟩)
  | xorReg x y => cases List.mem_singleton.1 h; exact .inr (.inl ⟨y, .inr (.inr (.inr rfl))⟩)
  | addReg x y => exact .inr (.inr (.inl ⟨x, y, .inl rfl, List.mem_pair.1 h⟩))
  | subReg x y => exact .inr (.inr (.inl ⟨x, y, .inr (.inl rfl), List.mem_pair.1 h⟩))
  | subnReg x y => exact .inr (.inr (.inl ⟨x, y, .inr (.inr rfl), List.mem_pair.1 h⟩))
  | shr x => exact .inr (.inr (.inr (.inl ⟨x, .inl rfl, List.mem_pair.1 h⟩)))
  | shl x => exact .inr (.inr (.inr (.inl ⟨x, .inr rfl, List.mem_pair.1 h⟩)))
  | draw x y n => exact .inr (.inr (.inr (.inr (.inl ⟨⟨x, y, n, rfl⟩, List.mem_singleton.1 h⟩))))
  | getDelay x => cases List.mem_singleton.1 h; exact .inr (.inr (.inr (.inr (.inr (.inl rfl)))))
  | regLoad x =>
    have hx : j.val ≤ x.val := of_decide_eq_true (List.mem_filter.1 h).2
    exact .inr (.inr (.inr (.inr (.inr (.inr ⟨x, rfl, hx⟩)))))
  | _ => cases h

theorem pc_mem_writtenPieces {i : Instr} (h : .pc ∈ writtenPieces i) :
    (∃ nnn, i = .jump nnn ∨ i = .call nnn ∨ i = .jumpOffset nnn) ∨ i = .ret ∨
    (∃ x nn, i = .skipEqImm x nn ∨ i = .skipNeqImm x nn) ∨ (∃ x y, i = .skipEqReg x y ∨ i = .skipNeqReg x y) ∨
    ∃ x, i = .skipKeyPressed x ∨ i = .skipKeyNotPressed x ∨ i = .waitKey x := by
  cases i <;> simp [writtenPieces] at h ⊢

theorem stack_mem_writtenPieces {i : Instr} (h : .stack ∈ writtenPieces i) : ∃ nnn, i = .call nnn := by
  cases i <;> simp [writtenPieces] at h ⊢

theorem sp_mem_writtenPieces {i : Instr} (h : .sp ∈ writtenPieces i) : i = .ret ∨ ∃ nnn, i = .call nnn := by
  cases i <;> simp [writtenPieces] at h ⊢

theorem delay_mem_writtenPieces {i : Instr} (h : .delay ∈ writtenPieces i) : ∃ x, i = .setDelay x := by
  cases i <;> simp [writtenPieces] at h ⊢

theorem sound_mem_writtenPieces {i : Instr} (h : .sound ∈ writtenPieces i) : ∃ x, i = .setSound x := by
  cases i <;> simp [writtenPieces] at h ⊢

theorem index_mem_writtenPieces {i : Instr} (h : .index ∈ writtenPieces i) :
    (∃ nnn, i = .setIndex nnn) ∨ (∃ x, i = .addToIndex x) ∨ ∃ x, i = .fontCharAddr x := by
  cases i <;> simp [writtenPieces] at h ⊢

theorem display_mem_writtenPieces {i : Instr} (h : .display ∈ writtenPieces i) :
    i = .clearScreen ∨ ∃ x y n, i = .draw x y n := by
  cases i <;> simp [writtenPieces] at h ⊢

theorem storesBytes_eq_true {i : Instr} (h : storesBytes i = true) : (∃ x, i = .bcdStore x) ∨ ∃ x, i = .regDump x := by
  cases i <;> simp [storesBytes] at h ⊢

theorem storesBytes_of_readMem {i : Instr} {s t : State} (h : Framed i s t) (henv : t.env = s.env) {a : Nat}
    (ha : t.readMem a ≠ s.readMem a) : storesBytes i = true := by
  by_contra hn
  refine ha ?_
  rw [State.readMem, State.readMem, henv, h.memory (Bool.not_eq_true _ ▸ hn)]

/-! ### The obligations -/

/-- Settles O53: the table of writers read by column, and what completion leaves. -/
theorem eachPieceHasItsWriters : Obligations.EachPieceHasItsWriters := by
  intro i s t hexec hf
  have hframe := framed_of_exec hexec hf
  obtain ⟨henv, hfault, hcause, hkey, -⟩ := completes_of_exec hexec hf
  exact ⟨fun j hj => mem_writtenRegs (hframe.mem_regs hj),
    fun h => pc_mem_writtenPieces (hframe.mem_pieces h),
    fun h => stack_mem_writtenPieces (hframe.mem_pieces h),
    fun h => sp_mem_writtenPieces (hframe.mem_pieces h),
    fun h => delay_mem_writtenPieces (hframe.mem_pieces h),
    fun h => sound_mem_writtenPieces (hframe.mem_pieces h),
    fun h => index_mem_writtenPieces (hframe.mem_pieces h),
    fun h => display_mem_writtenPieces (hframe.mem_pieces h),
    fun ⟨a, ha⟩ => storesBytes_eq_true (storesBytes_of_readMem hframe henv ha),
    hkey, henv, hfault, hcause⟩

/-- What a flag writer leaves in VF. -/
theorem reg_vf_of_exec_setRegFlag {i : Instr} {s t : State} {x : Reg} {result flag : Byte}
    (hexec : exec i s = .next (s.setRegFlag x result flag)) (h : exec i s = .next t) : t.reg vf = flag := by
  cases hexec.symm.trans h
  rw [reg_setRegFlag, if_pos rfl]

/-- The table's column of VF. -/
theorem vf_mem_writtenRegs {i : Instr} (h : vf ∈ writtenRegs i) :
    (∃ x y, i = .addReg x y ∨ i = .subReg x y ∨ i = .subnReg x y) ∨
    (∃ x, i = .shr x ∨ i = .shl x) ∨ (∃ x y n, i = .draw x y n) ∨
    (∃ nn, i = .setImm vf nn ∨ i = .addImm vf nn ∨ i = .random vf nn) ∨
    (∃ y, i = .setReg vf y ∨ i = .orReg vf y ∨ i = .andReg vf y ∨ i = .xorReg vf y) ∨ i = .getDelay vf ∨
    i = .regLoad vf := by
  obtain himm | hreg | ⟨x, y, hi, -⟩ | ⟨x, hi, -⟩ | ⟨hdraw, -⟩ | hdelay | ⟨x, rfl, hx⟩ := mem_writtenRegs h
  · exact .inr (.inr (.inr (.inl himm)))
  · exact .inr (.inr (.inr (.inr (.inl hreg))))
  · exact .inl ⟨x, y, hi⟩
  · exact .inr (.inl ⟨x, hi⟩)
  · exact .inr (.inr (.inl hdraw))
  · exact .inr (.inr (.inr (.inr (.inr (.inl hdelay)))))
  · have hvf : x = vf := Fin.ext (Nat.le_antisymm (Nat.le_of_lt_succ x.isLt) hx)
    exact .inr (.inr (.inr (.inr (.inr (.inr (hvf ▸ rfl))))))

/-- Settles O54: a flag writer's last write is its flag, and the table says who else may write VF. -/
theorem vfAndItsWriters : Obligations.VfAndItsWriters := by
  intro i s t hexec hf
  refine ⟨?_, ?_, ?_, ?_, ?_, ?_, ?_, fun h => vf_mem_writtenRegs ((framed_of_exec hexec hf).mem_regs h)⟩
  · rintro x y rfl
    exact (reg_vf_of_exec_setRegFlag (exec_addReg x y s) hexec).trans (carryFlag_eq _ _)
  · rintro x y rfl
    exact (reg_vf_of_exec_setRegFlag (exec_subReg x y s) hexec).trans (noBorrowFlag_eq _ _)
  · rintro x y rfl
    exact (reg_vf_of_exec_setRegFlag (exec_subnReg x y s) hexec).trans (noBorrowFlag_eq _ _)
  · rintro x rfl
    exact reg_vf_of_exec_setRegFlag (exec_shr x s) hexec
  · rintro x rfl
    exact reg_vf_of_exec_setRegFlag (exec_shl x s) hexec
  · rintro x y n rfl
    obtain ⟨-, rfl⟩ := exec_draw_next hexec hf
    exact reg_vf_drawn_zero_or_one s x y n
  · rintro x y n rfl hn
    obtain ⟨-, rfl⟩ := exec_draw_next hexec hf
    exact reg_vf_drawn_eq_one_iff s x y hn

end Sys2Proof.Proofs

/-! PROOFS. The host's events and the step (60_exceptions.md R190 to R196): what each event answers, in the live and in the
fault state, and which event a step performs. -/

namespace Sys2Proof.Proofs
open Sys2Proof.Machine

/-! ### `Tick` (R194) -/

theorem hostEvent_tick_decoded {s : State} {i : Instr} (hs : s.fault = false) (hc : s.canFetch)
    (hd : decodeWord (s.wordAt s.pc.toNat) = .ok i) (r : Byte) :
    hostEvent (.tick r) s = exec i (s.withRnd r).advancePc := by
  rw [hostEvent_live hs, liveEvent, tick_inRange hc, executeWord_decoded hd]

theorem hostEvent_tick_rejected {s : State} {e : Reject} (hs : s.fault = false) (hc : s.canFetch)
    (hd : decodeWord (s.wordAt s.pc.toNat) = .error e) (r : Byte) :
    hostEvent (.tick r) s = .next ((s.withRnd r).advancePc.rewind.emit (.diag (s.wordAt s.pc.toNat))) := by
  rw [hostEvent_live hs, liveEvent, tick_inRange hc, executeWord_rejected hd]

/-- The word at an address depends on memory and the font alone. -/
theorem wordAt_of_sameCore {s u : State} (hcore : SameCore s u) (hfont : u.env.font = s.env.font) (a : Nat) :
    u.wordAt a = s.wordAt a := by
  simp only [State.wordAt, State.readMem, sameCore_mem hcore, hfont]

/-- A tick from a state with the core and the font of `s` runs the instruction at PC in `s`. -/
theorem hostEvent_tick_sameCore {s u : State} {i : Instr} (hcore : SameCore s u) (hfont : u.env.font = s.env.font)
    (hs : s.fault = false) (hc : s.canFetch) (hd : decodeWord (s.wordAt s.pc.toNat) = .ok i) (r : Byte) :
    hostEvent (.tick r) u = exec i (u.withRnd r).advancePc := by
  have hpc : u.pc = s.pc := sameCore_pc hcore
  refine hostEvent_tick_decoded ((sameCore_fault hcore).trans hs) ?_ ?_ r
  · rwa [State.canFetch, hpc]
  · rw [hpc, wordAt_of_sameCore hcore hfont, hd]

/-- The cause of a fetch outside its range (10_state.md R16). -/
def fetchCause (s : State) : Fault := if s.pc.toNat < 512 then .reservedFetch else .fetchAddrRange

theorem hostEvent_tick_outOfRange {s : State} (hs : s.fault = false) (hc : ¬s.canFetch) (r : Byte) :
    hostEvent (.tick r) s = .next (enterFault (fetchCause s) (s.withRnd r)) := by
  rw [hostEvent_live hs, liveEvent, tick_outOfRange hc, fetchCause]

/-! ### The other events, outside the fault state -/

theorem hostEvent_load {s : State} (hs : s.fault = false) {bytes : List Byte} (h : bytes.length ≤ 3584) :
    hostEvent (.load bytes) s = .next (stored s 0x200 bytes) := by
  rw [hostEvent_live hs, liveEvent, load, if_neg (Nat.not_lt.2 h)]
  rfl

theorem hostEvent_load_tooLarge {s : State} (hs : s.fault = false) {bytes : List Byte} (h : bytes.length > 3584) :
    hostEvent (.load bytes) s = .next (enterFault .loadTooLarge s) := by
  rw [hostEvent_live hs, liveEvent, load, if_pos h, raise_eq]

/-- A `Load` that ends outside the fault state: its bytes fit and are stored. -/
theorem load_next {s t : State} {bytes : List Byte} (hs : s.fault = false) (h : hostEvent (.load bytes) s = .next t)
    (hf : t.fault = false) : bytes.length ≤ 3584 ∧ t = stored s 0x200 bytes := by
  by_cases hlen : bytes.length ≤ 3584
  · cases (hostEvent_load hs hlen).symm.trans h
    exact ⟨hlen, rfl⟩
  · cases (hostEvent_load_tooLarge hs (Nat.not_le.1 hlen)).symm.trans h
    cases hf

theorem hostEvent_setKey {s : State} (hs : s.fault = false) (k : Fin 16) (b : Bool) :
    hostEvent (.setKey k b) s = .next { s with key := s.key.set k.val b k.isLt } :=
  hostEvent_live hs _

theorem hostEvent_readDisplay {s : State} (hs : s.fault = false) :
    hostEvent .readDisplay s = .next (s.emit (.display 64 32 s.fb)) :=
  hostEvent_live hs _

/-! ### Events in the fault state (R183) -/

/-- In the fault state an event other than `Reset` leaves the core and the diagnostics as they are. -/
theorem hostEvent_faulted_keeps {s : State} {e : HostEvent} (hs : s.fault = true) (he : e ≠ .reset) :
    ∃ t, hostEvent e s = .next t ∧ SameCore s t ∧ t.env.font = s.env.font ∧
      ∀ w, .diag w ∈ t.env.outbox → .diag w ∈ s.env.outbox := by
  rw [hostEvent_faulted hs]
  cases e with
  | reset => exact absurd rfl he
  | readDisplay => exact ⟨_, rfl, rfl, rfl, fun w hw => (List.mem_cons.1 hw).resolve_left nofun⟩
  | load | setKey | tick | tickTimers => exact ⟨s, rfl, rfl, rfl, fun _ hw => hw⟩

/-! ### Every event answers a next state -/

theorem exec_total (i : Instr) (s : State) : ∃ t, exec i s = .next t := by
  obtain ⟨c, hc⟩ | ⟨t, ht⟩ := exec_cases i s
  · exact ⟨_, exec_of_faultsWith hc⟩
  · exact ⟨t, ht.exec⟩

theorem hostEvent_tick_total {s : State} (hs : s.fault = false) (r : Byte) : ∃ t, hostEvent (.tick r) s = .next t := by
  by_cases hc : s.canFetch
  · cases hd : decodeWord (s.wordAt s.pc.toNat) with
    | ok i => exact hostEvent_tick_decoded hs hc hd r ▸ exec_total i _
    | error e => exact ⟨_, hostEvent_tick_rejected hs hc hd r⟩
  · exact ⟨_, hostEvent_tick_outOfRange hs hc r⟩

theorem hostEvent_total (e : HostEvent) (s : State) : ∃ t, hostEvent e s = .next t := by
  cases hs : s.fault with
  | true =>
    by_cases he : e = .reset
    · exact ⟨_, he ▸ hostEvent_reset s⟩
    · obtain ⟨t, ht, -⟩ := hostEvent_faulted_keeps hs he
      exact ⟨t, ht⟩
  | false =>
    cases e with
    | reset => exact ⟨_, hostEvent_reset s⟩
    | load bytes =>
      by_cases h : bytes.length ≤ 3584
      · exact ⟨_, hostEvent_load hs h⟩
      · exact ⟨_, hostEvent_load_tooLarge hs (Nat.not_le.1 h)⟩
    | setKey k b => exact ⟨_, hostEvent_setKey hs k b⟩
    | tick r => exact hostEvent_tick_total hs r
    | tickTimers => exact ⟨_, hostEvent_tickTimers hs⟩
    | readDisplay => exact ⟨_, hostEvent_readDisplay hs⟩

/-! ### The next event of a step (R191) -/

theorem step_scheduled {s : State} {e : HostEvent} {rest : List HostEvent} (h : s.env.schedule = e :: rest) :
    step s = hostEvent e (s.withSchedule rest) := by
  rw [step, nextEvent_scheduled h]

theorem step_given {s : State} {e : HostEvent} {ps : List PlannedEvent} (h : s.env.schedule = [])
    (hp : s.env.recurring = .given e :: ps) : step s = hostEvent e (s.withRecurring (ps ++ [.given e])) := by
  rw [step, nextEvent_given h hp]

theorem step_tickAnyByte {s : State} {ps : List PlannedEvent} (h : s.env.schedule = [])
    (hp : s.env.recurring = .tickAnyByte :: ps) :
    step s = hostEvent (.tick (Config.randomByte s.env.draws)) (s.withRecurring (ps ++ [.tickAnyByte])).countDraw := by
  rw [step, nextEvent_tickAnyByte h hp]

theorem step_free {s : State} (h : s.env.schedule = []) (hp : s.env.recurring = []) :
    step s = hostEvent (Config.hostChoice s.env.draws) s.countDraw := by
  rw [step, nextEvent_free h hp]

/-! ### The obligations on the step -/

/-- Settles O6: one clause for each shape of the plan. -/
theorem stepPerformsTheNextEvent : Obligations.StepPerformsTheNextEvent := fun _ =>
  ⟨fun _ _ h => step_scheduled h, fun _ _ h hp => step_given h hp, fun _ h hp => ⟨_, step_tickAnyByte h hp⟩,
    fun h hp => ⟨_, step_free h hp⟩⟩

/-- Settles O7: taking the event from the plan leaves PC, memory and the latch, so the tick runs the word at PC. -/
theorem stepRunsTheDecodedInstruction : Obligations.StepRunsTheDecodedInstruction := by
  refine fun s i hs hc hd => ⟨fun r rest h => ?_, fun r ps h hp => ?_, fun ps h hp => ?_⟩
  · have hcore : SameCore s (s.withSchedule rest) := rfl
    exact (step_scheduled h).trans (hostEvent_tick_sameCore hcore rfl hs hc hd r)
  · have hcore : SameCore s (s.withRecurring (ps ++ [.given (.tick r)])) := rfl
    exact (step_given h hp).trans (hostEvent_tick_sameCore hcore rfl hs hc hd r)
  · have hcore : SameCore s (s.withRecurring (ps ++ [.tickAnyByte])).countDraw := rfl
    exact ⟨_, (step_tickAnyByte h hp).trans (hostEvent_tick_sameCore hcore rfl hs hc hd _)⟩

/-- Settles O8: `fetchCause` below `0x200` and from 4095 up. -/
theorem fetchFaultsOutsideItsRange : Obligations.FetchFaultsOutsideItsRange := by
  refine fun s r hs => ⟨fun h => ?_, fun h => ?_, fetch_inRange⟩
  · have hcause : fetchCause s = .reservedFetch := if_pos h
    exact ⟨_, hostEvent_tick_outOfRange hs (by omega) r, hcause ▸ faulted_enterFault _ (s.withRnd r)⟩
  · have hcause : fetchCause s = .fetchAddrRange := if_neg (by omega)
    exact ⟨_, hostEvent_tick_outOfRange hs (by omega) r, hcause ▸ faulted_enterFault _ (s.withRnd r)⟩

/-- Settles O9: a step is one event, and every event answers a next state. -/
theorem everyStepAnswersNextState : Obligations.EveryStepAnswersNextState := fun s =>
  hostEvent_total (nextEvent s).1 (nextEvent s).2

/-! ### The obligations on the fault state, `Reset` and `Load` -/

/-- Settles O43: each event keeps the core, so the latch stays set for the next one. -/
theorem faultStateIgnoresAllButReset : Obligations.FaultStateIgnoresAllButReset := by
  intro s es hs hes
  induction es generalizing s with
  | nil => exact ⟨s, rfl, sameCore_refl s, fun _ h => h⟩
  | cons e es ih =>
    obtain ⟨he, hrest⟩ := not_or.1 (mt List.mem_cons.2 hes)
    obtain ⟨t, hevent, hcore, -, hdiag⟩ := hostEvent_faulted_keeps hs (Ne.symm he)
    obtain ⟨u, hrun, hcore', hdiag'⟩ := ih t ((sameCore_fault hcore).trans hs) hrest
    exact ⟨u, by rw [runEvents, hevent]; exact hrun, sameCore_trans hcore hcore', fun w hw => hdiag w (hdiag' w hw)⟩

theorem readMem_resetCore (s : State) (a : Nat) : (resetCore s).readMem a = resetByte s.env.font a := rfl

theorem resetByte_font {font : Vector Byte Config.fontSize} {a : Nat} (h : a < 80) :
    some (resetByte font a) = font[a]? := by
  rw [resetByte, dif_pos h, Vector.getElem?_eq_getElem h]

theorem resetByte_above {a : Nat} (h : 80 ≤ a) (font : Vector Byte Config.fontSize) : resetByte font a = 0 :=
  dif_neg (Nat.not_lt.2 h)

theorem reg_resetCore (s : State) (j : Reg) : (resetCore s).reg j = 0 := Vector.getElem_replicate j.isLt

theorem keyFlag_resetCore (s : State) (k : Fin 16) : (resetCore s).keyFlag k = false := Vector.getElem_replicate k.isLt

/-- Settles O45: `Reset` answers the reset core, whose memory lists nothing. -/
theorem resetStateValues : Obligations.ResetStateValues := by
  intro s t h
  cases (hostEvent_reset s).symm.trans h
  exact ⟨fun a ha => readMem_resetCore s a ▸ resetByte_font ha,
    fun a ha => readMem_resetCore s a ▸ resetByte_above ha _,
    reg_resetCore s, rfl, rfl, fun j => Vector.getElem_replicate j.isLt, rfl, rfl, rfl, keyFlag_resetCore s,
    cellOf_clearCells, rfl, rfl, rfl, rfl⟩

/-- The bytes stored, as a list reads them. -/
theorem readMem_stored_getElem? (s : State) (a : Nat) {bs : List Byte} {k : Nat} (hk : k < bs.length) :
    some ((stored s a bs).readMem (a + k)) = bs[k]? := by
  rw [readMem_stored_getElem s a bs hk, List.getElem?_eq_getElem hk]

theorem readMem_stored_outside (s : State) {a k : Nat} {bs : List Byte} (h : k < a ∨ a + bs.length ≤ k) :
    (stored s a bs).readMem k = s.readMem k :=
  (frame_stored s a bs).2.2 k h

/-- Settles O46: `Load` stores its bytes at `0x200`, if they fit. -/
theorem loadPlacesTheProgram : Obligations.LoadPlacesTheProgram := by
  refine fun s bytes hs => ⟨fun h => ?_, fun h => ?_⟩
  · exact ⟨_, hostEvent_load_tooLarge hs h, faulted_enterFault _ s⟩
  · exact ⟨_, hostEvent_load hs h, fun k hk => readMem_stored_getElem? s 0x200 hk, frame_stored s 0x200 bytes⟩

/-- Settles O47: `Load` changes nothing but its bytes, so the rest is the reset core. -/
theorem launchState : Obligations.LaunchState := by
  intro s bytes h
  have hrun : runEvents [.reset, .load bytes] s = .next (stored (resetCore s) 0x200 bytes) := by
    simp only [runEvents, hostEvent_reset, hostEvent_load (resetCore_fault s) h]
  refine ⟨_, hrun, rfl, rfl, rfl, reg_resetCore s, rfl, rfl, rfl, keyFlag_resetCore s, cellOf_clearCells,
    fun k hk => readMem_stored_getElem? _ _ hk, fun a ha => ?_, fun a hlo hhi => ?_, fun a ha => ?_⟩
  · rw [readMem_stored_outside _ (.inl (by omega)), readMem_resetCore]
    exact resetByte_font ha
  · rw [readMem_stored_outside _ (.inl hhi), readMem_resetCore]
    exact resetByte_above hlo _
  · rw [readMem_stored_outside _ (.inr ha), readMem_resetCore]
    exact resetByte_above (by omega) _

/-! ### The obligations on the display and the keys -/

/-- Settles O49: the output is the grid, but for free cells in the fault state. -/
theorem readDisplayShowsTheGrid : Obligations.ReadDisplayShowsTheGrid := by
  intro s
  cases hs : s.fault with
  | false => exact ⟨_, s.fb, hostEvent_readDisplay hs, rfl, rfl, fun _ _ => rfl⟩
  | true => exact ⟨_, _, hostEvent_faulted hs .readDisplay, rfl, rfl, nofun⟩

theorem keyFlag_setKey (s : State) (k j : Fin 16) (b : Bool) :
    ({ s with key := s.key.set k.val b k.isLt } : State).keyFlag j = if j = k then b else s.keyFlag j := by
  simp only [State.keyFlag, Fin.getElem_fin, Vector.getElem_set, Fin.ext_iff, eq_comm]

theorem frame_setKeys (s : State) (ks : Vector Bool 16) : OnlyPiecesWritten [.keys] s { s with key := ks } := by
  refine ⟨fun p hp => ?_, fun _ _ => rfl, fun _ => rfl⟩
  cases p with
  | keys => exact absurd List.mem_cons_self hp
  | _ => rfl

/-- A `Tick` that ends outside the fault state leaves the key flags. -/
theorem key_of_tick {s t : State} {r : Byte} (hs : s.fault = false) (h : hostEvent (.tick r) s = .next t)
    (hf : t.fault = false) : t.key = s.key := by
  obtain ⟨-, ⟨i, -, hexec⟩ | ⟨-, rfl⟩⟩ := tick_next hs h hf
  · exact (completes_of_exec hexec hf).key
  · rfl

/-- Settles O50: `SetKey` alone writes a key flag outside the fault state, and only the flag it names. -/
theorem keyFlagsFollowTheHost : Obligations.KeyFlagsFollowTheHost := by
  refine ⟨fun s k b hs => ?_, fun e s t k h hf hreset hset => ?_⟩
  · refine ⟨_, hostEvent_setKey hs k b, ?_, fun j hj => ?_, frame_setKeys s _⟩
    · rw [keyFlag_setKey, if_pos rfl]
    · rw [keyFlag_setKey, if_neg hj]
  · cases hs : s.fault with
    | true => exact absurd (hostEvent_leavesFault hs h hf) hreset
    | false =>
      cases e with
      | reset => exact absurd rfl hreset
      | load bytes =>
        obtain ⟨-, rfl⟩ := load_next hs h hf
        rfl
      | setKey j b =>
        have hjk : k ≠ j := fun hkj => hset b (hkj ▸ rfl)
        cases (hostEvent_setKey hs j b).symm.trans h
        rw [keyFlag_setKey, if_neg hjk]
      | tick r => exact congrArg (fun v : Vector Bool 16 => v[k]) (key_of_tick hs h hf)
      | tickTimers => cases (hostEvent_tickTimers hs).symm.trans h; rfl
      | readDisplay => cases (hostEvent_readDisplay hs).symm.trans h; rfl

/-- An instruction that darkens a cell is clear-screen: draw, the other writer of the display, only lights cells. -/
theorem eq_clearScreen_of_darkened {i : Instr} {s t : State} {k : Fin 2048} (h : exec i s = .next t)
    (hf : t.fault = false) (hlit : s.cell k = true) (hdark : t.cell k = false) : i = .clearScreen := by
  have hfb : t.fb ≠ s.fb := fun heq => by
    have hsame : t.cell k = s.cell k := congrArg (cellOf · k) heq
    cases hdark.symm.trans (hsame.trans hlit)
  obtain hcls | ⟨x, y, n, rfl⟩ := display_mem_writtenPieces ((framed_of_exec h hf).mem_pieces hfb)
  · exact hcls
  · obtain ⟨-, rfl⟩ := exec_draw_next h hf
    cases hdark.symm.trans ((cell_drawn s x y n k).2 (.inl hlit))

/-- Settles O36: of the events only `Reset` and a `Tick` write the display, and of the instructions only clear-screen
darkens a cell. -/
theorem litCellsStayLit : Obligations.LitCellsStayLit := by
  intro e s t k h hf hlit hdark
  cases hs : s.fault with
  | true => exact .inl (hostEvent_leavesFault hs h hf)
  | false =>
    have hunchanged (hfb : t.fb = s.fb) : False := by
      have hsame : t.cell k = s.cell k := congrArg (cellOf · k) hfb
      cases hdark.symm.trans (hsame.trans hlit)
    cases e with
    | reset => exact .inl rfl
    | load bytes =>
      obtain ⟨-, rfl⟩ := load_next hs h hf
      exact (hunchanged rfl).elim
    | setKey j b =>
      cases (hostEvent_setKey hs j b).symm.trans h
      exact (hunchanged rfl).elim
    | tick r =>
      obtain ⟨-, ⟨i, hd, hexec⟩ | ⟨-, rfl⟩⟩ := tick_next hs h hf
      · exact .inr ⟨r, rfl, eq_clearScreen_of_darkened hexec hf hlit hdark ▸ hd⟩
      · exact (hunchanged rfl).elim
    | tickTimers =>
      cases (hostEvent_tickTimers hs).symm.trans h
      exact (hunchanged rfl).elim
    | readDisplay =>
      cases (hostEvent_readDisplay hs).symm.trans h
      exact (hunchanged rfl).elim

end Sys2Proof.Proofs

/-! PROOFS. The invariant (10_state.md R18, R20, R22): it holds after reset, and every event keeps it. An instruction runs
in a state whose PC is past a fetched word, so that a call pushes an address in `0x202..0x1000`. -/

namespace Sys2Proof.Proofs
open Sys2Proof.Machine

/-! ### States that meet the invariant whatever came before -/

theorem inv_enterFault (c : Fault) (s : State) : Inv (enterFault c s) where
  memory := enterFault_memWf c s
  latch := rfl
  pcRange := nofun
  liveEntries := nofun

theorem inv_resetCore (s : State) : Inv (resetCore s) where
  memory := nil_wf _
  latch := rfl
  pcRange _ := (by decide : (0x200 : Word).toNat ≤ 0x10FE)
  liveEntries _ j hj := absurd hj (Nat.not_lt_zero j.val)

/-- The invariant speaks of the core, and of the font that memory is listed over. -/
theorem inv_of_sameCore {s u : State} (h : Inv s) (hcore : SameCore s u) (hfont : u.env.font = s.env.font) : Inv u where
  memory := by rw [State.memWf, hfont, sameCore_mem hcore]; exact h.memory
  latch := by rw [sameCore_fault hcore, sameCore_cause hcore]; exact h.latch
  pcRange hf := by rw [sameCore_pc hcore]; exact h.pcRange (sameCore_fault hcore ▸ hf)
  liveEntries hf := by
    rw [sameCore_stack hcore, sameCore_sp hcore]
    exact h.liveEntries (sameCore_fault hcore ▸ hf)

/-! ### What an instruction leaves -/

/-- The live stack entries are addresses after a call (R18). -/
def LiveInRange (s : State) : Prop :=
  ∀ j : Fin 16, j.val < s.sp.val → 0x202 ≤ s.stack[j].toNat ∧ s.stack[j].toNat ≤ 0x1000

/-- Outside the fault state an instruction keeps memory canonical: it stores below 4096 or nothing (20_memory.md R42). -/
theorem memWf_of_exec {i : Instr} {s t : State} (h : exec i s = .next t) (hf : t.fault = false) (hwf : s.memWf) :
    t.memWf := by
  cases hstores : storesBytes i with
  | false =>
    rw [State.memWf, (completes_of_exec h hf).env, (framed_of_exec h hf).memory hstores]
    exact hwf
  | true =>
    obtain ⟨x, rfl⟩ | ⟨x, rfl⟩ := storesBytes_eq_true hstores
    · obtain ⟨rfl, hnil | hin⟩ := storeBytes_next h hf
      · exact absurd hnil (List.cons_ne_nil _ _)
      · exact stored_memWf hwf hin
    · obtain ⟨rfl, hin⟩ := exec_regDump_next h hf
      exact stored_memWf hwf (by rwa [length_regsUpTo])

theorem toNat_skipIf_pc_le {s : State} (h : s.pc.toNat ≤ 0x1000) (c : Bool) : (s.skipIf c).pc.toNat ≤ 0x10FE := by
  rw [skipIf_pc]
  split
  · bv_omega
  · omega

theorem toNat_zext16_lt (nnn : Addr12) : (zext16 nnn).toNat < 4096 := by
  rw [BitVec.toNat_setWidth_of_le (by decide)]
  exact nnn.isLt

/-- PC ends at a 12-bit target, at a live entry, at the sum of a byte and an address, or near where it was (R18). -/
theorem pc_le_of_exec {i : Instr} {s t : State} (h : exec i s = .next t) (hf : t.fault = false)
    (hlo : 0x202 ≤ s.pc.toNat) (hhi : s.pc.toNat ≤ 0x1000) (hlive : LiveInRange s) : t.pc.toNat ≤ 0x10FE := by
  cases i with
  | jump nnn => cases h; exact (toNat_zext16_lt nnn).le.trans (by decide)
  | call nnn => obtain ⟨-, rfl⟩ := execCall_next h hf; exact (toNat_zext16_lt nnn).le.trans (by decide)
  | jumpOffset nnn =>
    cases h
    rw [jumpTo_pc, toNat_zext16_add_zext16]
    omega
  | ret =>
    obtain ⟨hne, rfl⟩ := execRet_next h hf
    have htop : s.sp.val - 1 < s.sp.val := Nat.sub_one_lt hne
    exact (hlive ⟨s.sp.val - 1, by omega⟩ htop).2.trans (by decide)
  | skipEqImm x nn => cases h; exact toNat_skipIf_pc_le hhi _
  | skipNeqImm x nn => cases h; exact toNat_skipIf_pc_le hhi _
  | skipEqReg x y => cases h; exact toNat_skipIf_pc_le hhi _
  | skipNeqReg x y => cases h; exact toNat_skipIf_pc_le hhi _
  | skipKeyPressed x => obtain ⟨-, rfl⟩ := withKey_next h hf; exact toNat_skipIf_pc_le hhi _
  | skipKeyNotPressed x => obtain ⟨-, rfl⟩ := withKey_next h hf; exact toNat_skipIf_pc_le hhi _
  | waitKey x =>
    obtain ⟨hk, rfl⟩ := withKey_next h hf
    refine (congrArg BitVec.toNat (waitIf_pc s _)).trans_le ?_
    split
    · omega
    · bv_omega
  | _ =>
    have hpc : t.pc = s.pc := (framed_of_exec h hf).pieces .pc (by simp [writtenPieces])
    rw [hpc]
    omega

/-- A call pushes PC, a return uncounts an entry, and no other instruction touches the stack (R20). -/
theorem liveInRange_of_exec {i : Instr} {s t : State} (h : exec i s = .next t) (hf : t.fault = false)
    (hlo : 0x202 ≤ s.pc.toNat) (hhi : s.pc.toNat ≤ 0x1000) (hlive : LiveInRange s) : LiveInRange t := by
  cases i with
  | ret =>
    obtain ⟨-, rfl⟩ := execRet_next h hf
    exact fun j hj => hlive j (hj.trans_le (Nat.sub_le _ _))
  | call nnn =>
    obtain ⟨hroom, rfl⟩ := execCall_next h hf
    intro j hj
    by_cases htop : s.sp.val = j.val
    · simp only [jumpTo_stack, Fin.getElem_fin, Vector.getElem_set, if_pos htop]
      exact ⟨hlo, hhi⟩
    · have hbelow : j.val < s.sp.val := by
        have : j.val < s.sp.val + 1 := hj
        omega
      simp only [jumpTo_stack, Fin.getElem_fin, Vector.getElem_set, if_neg htop]
      exact hlive j hbelow
  | _ =>
    have hstack : t.stack = s.stack := (framed_of_exec h hf).pieces .stack (by simp [writtenPieces])
    have hsp : t.sp = s.sp := (framed_of_exec h hf).pieces .sp (by simp [writtenPieces])
    rw [LiveInRange, hstack, hsp]
    exact hlive

/-! ### Every event keeps the invariant -/

/-- The state an instruction runs in meets the invariant, with PC past a word that was fetched. -/
theorem inv_of_exec {i : Instr} {s t : State} (h : exec i s = .next t) (hs : s.fault = false) (hinv : Inv s)
    (hlo : 0x202 ≤ s.pc.toNat) (hhi : s.pc.toNat ≤ 0x1000) : Inv t := by
  cases hf : t.fault with
  | true =>
    obtain ⟨c, -, rfl⟩ := faultsWith_of_exec hs h hf
    exact inv_enterFault c s
  | false =>
    have hlive := hinv.liveEntries hs
    have hcompletes := completes_of_exec h hf
    exact ⟨memWf_of_exec h hf hinv.memory, by rw [hcompletes.fault, hcompletes.cause, hinv.latch],
      fun _ => pc_le_of_exec h hf hlo hhi hlive, fun _ => liveInRange_of_exec h hf hlo hhi hlive⟩

/-- Going back over the word that was fetched gives the PC it was fetched at. -/
theorem sameCore_stalled (s : State) (r : Byte) (o : HostOutput) :
    SameCore s ((s.withRnd r).advancePc.rewind.emit o) := by
  have hpc : s.pc + 2 - 2 = s.pc := BitVec.add_sub_cancel _ _
  exact congrArg (fun p => ({ s with pc := p } : State)) hpc

theorem inv_of_tick {s t : State} {r : Byte} (hs : s.fault = false) (hinv : Inv s)
    (h : hostEvent (.tick r) s = .next t) : Inv t := by
  by_cases hc : s.canFetch
  · have hpc : (s.pc + 2).toNat = s.pc.toNat + 2 := by bv_omega
    have hfetched : Inv (s.withRnd r).advancePc :=
      ⟨hinv.memory, hinv.latch, fun _ => by rw [advancePc_pc, withRnd_pc, hpc]; omega, hinv.liveEntries⟩
    cases hd : decodeWord (s.wordAt s.pc.toNat) with
    | ok i =>
      rw [hostEvent_tick_decoded hs hc hd] at h
      refine inv_of_exec h hs hfetched ?_ ?_
      · rw [advancePc_pc, withRnd_pc, hpc]; omega
      · rw [advancePc_pc, withRnd_pc, hpc]; omega
    | error e =>
      cases (hostEvent_tick_rejected hs hc hd r).symm.trans h
      exact inv_of_sameCore hinv (sameCore_stalled s r _) rfl
  · cases (hostEvent_tick_outOfRange hs hc r).symm.trans h
    exact inv_enterFault _ _

theorem inv_of_hostEvent {e : HostEvent} {s t : State} (hinv : Inv s) (h : hostEvent e s = .next t) : Inv t := by
  cases hs : s.fault with
  | true =>
    by_cases he : e = .reset
    · cases (he ▸ hostEvent_reset s).symm.trans h
      exact inv_resetCore s
    · obtain ⟨u, hu, hcore, hfont, -⟩ := hostEvent_faulted_keeps hs he
      cases hu.symm.trans h
      exact inv_of_sameCore hinv hcore hfont
  | false =>
    cases e with
    | reset => cases (hostEvent_reset s).symm.trans h; exact inv_resetCore s
    | load bytes =>
      by_cases hlen : bytes.length ≤ 3584
      · cases (hostEvent_load hs hlen).symm.trans h
        have hfits : 0x200 + bytes.length ≤ Config.memSize := Nat.add_le_add_left hlen 0x200
        exact ⟨stored_memWf hinv.memory hfits, hinv.latch, hinv.pcRange, hinv.liveEntries⟩
      · cases (hostEvent_load_tooLarge hs (Nat.not_le.1 hlen)).symm.trans h
        exact inv_enterFault _ _
    | setKey k b =>
      cases (hostEvent_setKey hs k b).symm.trans h
      exact ⟨hinv.memory, hinv.latch, hinv.pcRange, hinv.liveEntries⟩
    | tick r => exact inv_of_tick hs hinv h
    | tickTimers =>
      cases (hostEvent_tickTimers hs).symm.trans h
      exact ⟨hinv.memory, hinv.latch, hinv.pcRange, hinv.liveEntries⟩
    | readDisplay =>
      cases (hostEvent_readDisplay hs).symm.trans h
      exact inv_of_sameCore hinv rfl rfl

/-! ### The obligations -/

/-- Settles O51: taking the next event from the plan leaves the core and the font, and the event keeps the invariant. -/
theorem stepKeepsTheInvariant : Obligations.StepKeepsTheInvariant := by
  intro s t hinv h
  obtain ⟨hcore, hfont, -⟩ := nextEvent_keeps s
  exact inv_of_hostEvent (inv_of_sameCore hinv hcore hfont) h

/-- Settles O52: the reset state is the reset core of itself. -/
theorem resetMeetsTheInvariant : Obligations.ResetMeetsTheInvariant := inv_resetCore State.reset

end Sys2Proof.Proofs

/-! PROOFS. Ticks that leave the core as it is: a wait-key whose key is up, an unrecognized word, a jump to itself
(44_keys_timers.md R152, 45_unrecognized.md R170, 70_reset_and_hazards.md R222, R223). -/

namespace Sys2Proof.Proofs
open Sys2Proof.Machine

/-! ### Waiting for a key -/

/-- The state stands, outside the fault state, at a wait-key of register `x` whose key is `k`. -/
structure AtWaitKey (x : Reg) (k : Fin 16) (s : State) : Prop where
  live : s.fault = false
  inRange : s.canFetch
  word : decodeWord (s.wordAt s.pc.toNat) = .ok (.waitKey x)
  index : (s.reg x).toNat = k.val

theorem reg_of_sameCore {s t : State} (hcore : SameCore s t) (j : Reg) : t.reg j = s.reg j := by
  rw [State.reg, State.reg, sameCore_v hcore]

theorem keyFlag_of_sameCore {s t : State} (hcore : SameCore s t) (k : Fin 16) : t.keyFlag k = s.keyFlag k := by
  rw [State.keyFlag, State.keyFlag, sameCore_key hcore]

theorem canFetch_of_sameCore {s t : State} (hcore : SameCore s t) (hc : s.canFetch) : t.canFetch := by
  rwa [State.canFetch, sameCore_pc hcore]

/-- The word at PC depends on the core and the font alone. -/
theorem fetched_of_sameCore {s t : State} (hcore : SameCore s t) (hfont : t.env.font = s.env.font) :
    t.wordAt t.pc.toNat = s.wordAt s.pc.toNat := by
  rw [sameCore_pc hcore, wordAt_of_sameCore hcore hfont]

theorem AtWaitKey.of_sameCore {x : Reg} {k : Fin 16} {s t : State} (h : AtWaitKey x k s) (hcore : SameCore s t)
    (hfont : t.env.font = s.env.font) : AtWaitKey x k t where
  live := (sameCore_fault hcore).trans h.live
  inRange := canFetch_of_sameCore hcore h.inRange
  word := by rw [fetched_of_sameCore hcore hfont, h.word]
  index := by rw [reg_of_sameCore hcore, h.index]

theorem hostEvent_tick_waitKey {x : Reg} {k : Fin 16} {s : State} (h : AtWaitKey x k s) (r : Byte) :
    hostEvent (.tick r) s = .next (waitIf (s.withRnd r).advancePc (s.keyFlag k)) := by
  rw [hostEvent_tick_decoded h.live h.inRange h.word]
  exact orRaise_withKey_inRange (s := (s.withRnd r).advancePc) h.index _

theorem sameCore_rewound (s : State) (r : Byte) : SameCore s (s.withRnd r).advancePc.rewind := by
  have hpc : s.pc + 2 - 2 = s.pc := BitVec.add_sub_cancel _ _
  exact congrArg (fun p => ({ s with pc := p } : State)) hpc

/-- With the key up a tick changes nothing of the core and emits nothing. -/
theorem hostEvent_tick_keyUp {x : Reg} {k : Fin 16} {s : State} (h : AtWaitKey x k s) (hup : s.keyFlag k = false)
    (r : Byte) : ∃ t, hostEvent (.tick r) s = .next t ∧ SameCore s t ∧ t.env.outbox = s.env.outbox ∧
      t.env.font = s.env.font :=
  ⟨_, (hostEvent_tick_waitKey h r).trans (by rw [hup]; rfl), sameCore_rewound s r, rfl, rfl⟩

/-- With the key down a tick passes the instruction. -/
theorem hostEvent_tick_keyDown {x : Reg} {k : Fin 16} {s : State} (h : AtWaitKey x k s) (hdown : s.keyFlag k = true)
    (r : Byte) : hostEvent (.tick r) s = .next (s.withRnd r).advancePc := by
  rw [hostEvent_tick_waitKey h, hdown]
  rfl

/-- The state after the host has pressed key `k`. -/
def pressed (s : State) (k : Fin 16) : State := { s with key := s.key.set k.val true k.isLt }

theorem hostEvent_pressKey {s : State} (hs : s.fault = false) (k : Fin 16) :
    hostEvent (.setKey k true) s = .next (pressed s k) := hostEvent_setKey hs k true

theorem keyFlag_pressed (s : State) (k : Fin 16) : (pressed s k).keyFlag k = true := by
  rw [pressed, keyFlag_setKey, if_pos rfl]

/-- Settles O39: the ticks keep the core, so the key is still up when the host sets it. -/
theorem waitKeyWaitsForItsKey : Obligations.WaitKeyWaitsForItsKey := by
  intro x k s rs r hs hc hd hk hup
  have hstart : AtWaitKey x k s := ⟨hs, hc, hd, hk⟩
  obtain ⟨t, hrun, hcore, hout, hwait, -⟩ := ticks_keepCore (fun t => AtWaitKey x k t ∧ t.keyFlag k = false) []
    (fun t ⟨ht, hkt⟩ r => by
      obtain ⟨u, hu, hcore, hout, hfont⟩ := hostEvent_tick_keyUp ht hkt r
      exact ⟨u, hu, hcore, hout, ht.of_sameCore hcore hfont, (keyFlag_of_sameCore hcore k).trans hkt⟩)
    rs s ⟨hstart, hup⟩
  have hquiet : t.env.outbox = s.env.outbox := by simpa using hout
  refine ⟨⟨t, hrun, hcore, hquiet⟩, ?_⟩
  have hpressed : AtWaitKey x k (pressed t k) := ⟨hwait.live, hwait.inRange, hwait.word, hwait.index⟩
  have hpc : t.pc = s.pc := sameCore_pc hcore
  have hregs : ∀ j, t.reg j = s.reg j := reg_of_sameCore hcore
  refine ⟨((pressed t k).withRnd r).advancePc, ?_, congrArg (· + 2) hpc, hwait.live, hregs, hquiet⟩
  rw [runEvents_append hrun]
  simp only [runEvents, hostEvent_pressKey hwait.live, hostEvent_tick_keyDown hpressed (keyFlag_pressed t k)]

/-! ### Unrecognized words -/

/-- A word that fits no row is rejected. -/
theorem decodeWord_of_noRow {w : Word} (h : ∀ row ∈ opcodeTable, row.matches w = false) :
    decodeWord w = .error (.unrecognized w) := by
  cases hd : decodeWord w with
  | ok i => exact absurd ((h _ (row_mem_opcodeTable i)).symm.trans (matches_of_decodeWord hd)) (by decide)
  | error e => rw [decodeWord_error hd]

/-- The state stands, outside the fault state, at the unrecognized word `w`. -/
structure AtUnrecognized (w : Word) (s : State) : Prop where
  live : s.fault = false
  inRange : s.canFetch
  word : s.wordAt s.pc.toNat = w

/-- Settles O41: each tick goes back over the word, with one diagnostic. -/
theorem unrecognizedWordStalls : Obligations.UnrecognizedWordStalls := by
  intro s w rs hs hc hw hrows
  obtain ⟨t, hrun, hcore, hout, -⟩ := ticks_keepCore (AtUnrecognized w) [.diag w]
    (fun t ht r => by
      have hstall := hostEvent_tick_rejected ht.live ht.inRange (ht.word ▸ decodeWord_of_noRow hrows) r
      have hcore := sameCore_stalled t r (.diag (t.wordAt t.pc.toNat))
      exact ⟨_, hstall, hcore, by rw [ht.word]; rfl,
        ⟨(sameCore_fault hcore).trans ht.live, canFetch_of_sameCore hcore ht.inRange,
          (fetched_of_sameCore hcore rfl).trans ht.word⟩⟩)
    rs s ⟨hs, hc, hw.symm⟩
  exact ⟨t, hrun, hcore, by simpa using hout⟩

/-! ### A jump to itself -/

/-- A PC in fetch range is the target that its low 12 bits name. -/
theorem zext16_low12 {p : Word} (h : p.toNat ≤ 4094) : zext16 (p.extractLsb' 0 12) = p := by
  apply BitVec.eq_of_toNat_eq
  rw [BitVec.toNat_setWidth_of_le (by decide), BitVec.extractLsb'_toNat, Nat.shiftRight_zero]
  exact Nat.mod_eq_of_lt (by omega)

theorem jumpsToSelf_of_sameCore {s t : State} (h : jumpsToSelf s) (hcore : SameCore s t)
    (hfont : t.env.font = s.env.font) : jumpsToSelf t := by
  obtain ⟨hs, hc, hd⟩ := h
  refine ⟨(sameCore_fault hcore).trans hs, canFetch_of_sameCore hcore hc, ?_⟩
  rw [fetched_of_sameCore hcore hfont, sameCore_pc hcore, hd]

/-- A tick at a jump to itself comes back to it. -/
theorem hostEvent_tick_jumpsToSelf {s : State} (h : jumpsToSelf s) (r : Byte) :
    ∃ t, hostEvent (.tick r) s = .next t ∧ SameCore s t ∧ t.env.outbox = s.env.outbox ∧ jumpsToSelf t := by
  obtain ⟨hs, hc, hd⟩ := h
  have hcore : SameCore s ((s.withRnd r).advancePc.jumpTo (zext16 (s.pc.extractLsb' 0 12))) :=
    congrArg (fun p => ({ s with pc := p } : State)) (zext16_low12 hc.2)
  exact ⟨_, hostEvent_tick_decoded hs hc hd r, hcore, rfl, jumpsToSelf_of_sameCore ⟨hs, hc, hd⟩ hcore rfl⟩

/-- Settles O56: the ticks keep the core, so the run ends where it began. -/
theorem jumpToSelfStays : Obligations.JumpToSelfStays := by
  intro s rs h
  obtain ⟨t, hrun, hcore, hout, hend⟩ := ticks_keepCore jumpsToSelf []
    (fun _ ht r => hostEvent_tick_jumpsToSelf ht r) rs s h
  exact ⟨t, hrun, hcore, by simpa using hout, t, hrun, hend.1, hend⟩

end Sys2Proof.Proofs

/-! PROOFS. What stands outside the core does not steer it (10_state.md R25): an event from two states with the same core
and font faults in both with one cause, or leaves both with the same core and adds the same outputs. From this: the byte of
a `Tick` matters to random alone, and the core follows the sequence of events alone (60_exceptions.md R191, R198). -/

namespace Sys2Proof.Proofs
open Sys2Proof.Machine

/-! ### One event from two environments -/

/-- The state in which an event begins: a `Tick` hands over its byte first (R7). -/
def begun : HostEvent → State → State
  | .tick r, s => s.withRnd r
  | _, s => s

/-- The environment after an event that ended without a fault: what it hands over, and its outputs. -/
def envAfter (out : List HostOutput) : HostEvent → Env → Env
  | .tick r, e => { e with rnd := r, outbox := out ++ e.outbox }
  | _, e => { e with outbox := out ++ e.outbox }

/-- Event `ev` from `s` and event `ev'` from the same core with the environment `e`: a fault of one cause in both, or one
core, without a fault, with the same outputs more. -/
inductive SameEffect (s : State) (e : Env) (ev ev' : HostEvent) : Prop
  | fault (c : Fault) (h : hostEvent ev s = .next (enterFault c (begun ev s)))
      (h' : hostEvent ev' { s with env := e } = .next (enterFault c (begun ev' { s with env := e })))
  | next (t : State) (out : List HostOutput) (hf : t.fault = false)
      (h : hostEvent ev s = .next { t with env := envAfter out ev s.env })
      (h' : hostEvent ev' { s with env := e } = .next { t with env := envAfter out ev' e })

/-- Two ticks, with the same byte or at a word that is not random. -/
theorem sameEffect_tick {s : State} {e : Env} (hs : s.fault = false) (hfont : e.font = s.env.font) {r r' : Byte}
    (hr : (∃ x nn, decodeWord (s.wordAt s.pc.toNat) = .ok (.random x nn)) → r' = r) :
    SameEffect s e (.tick r) (.tick r') := by
  have hcore : SameCore s { s with env := e } := rfl
  by_cases hc : s.canFetch
  · have hc' : ({ s with env := e } : State).canFetch := hc
    have hword := fetched_of_sameCore hcore hfont
    cases hd : decodeWord (s.wordAt s.pc.toNat) with
    | error err =>
      refine .next (s.withRnd r).advancePc.rewind [.diag (s.wordAt s.pc.toNat)] hs (hostEvent_tick_rejected hs hc hd r)
        ((hostEvent_tick_rejected (s := { s with env := e }) hs hc' (hword ▸ hd) r').trans ?_)
      rw [hword]
      rfl
    | ok i =>
      have htick := hostEvent_tick_decoded hs hc hd r
      have htick' := hostEvent_tick_decoded (s := { s with env := e }) hs hc' (hword ▸ hd) r'
      obtain ⟨c, hfaults⟩ | ⟨t, ht⟩ := exec_cases i (s.withRnd r).advancePc
      · exact .fault c (htick.trans (exec_of_faultsWith hfaults))
          (htick'.trans (exec_of_faultsWith (faultsWith_setEnv hfaults { e with rnd := r' })))
      · have hrnd : (∃ x nn, i = .random x nn) → r' = r := fun ⟨x, nn, hi⟩ => hr ⟨x, nn, hi ▸ hd⟩
        have hanswer := ht.answers { e with rnd := r' } hfont hrnd
        refine .next t [] (ht.fault.trans hs) (htick.trans (ht.exec.trans ?_)) (htick'.trans hanswer)
        exact congrArg Host.Outcome.next (congrArg (fun e => ({ t with env := e } : State)) ht.env)
  · exact .fault (fetchCause s) (hostEvent_tick_outOfRange hs hc r)
      (hostEvent_tick_outOfRange (s := { s with env := e }) hs hc r')

/-- One event. -/
theorem sameEffect_of_live {s : State} {e : Env} (hs : s.fault = false) (hfont : e.font = s.env.font) (ev : HostEvent) :
    SameEffect s e ev ev := by
  have hs' : ({ s with env := e } : State).fault = false := hs
  cases ev with
  | reset => exact .next (resetCore s) [] rfl (hostEvent_reset s) (hostEvent_reset _)
  | load bytes =>
    by_cases hlen : bytes.length ≤ 3584
    · refine .next (stored s 0x200 bytes) [] hs (hostEvent_load hs hlen) ((hostEvent_load hs' hlen).trans ?_)
      simp only [stored, hfont]
      rfl
    · exact .fault .loadTooLarge (hostEvent_load_tooLarge hs (Nat.not_le.1 hlen))
        (hostEvent_load_tooLarge hs' (Nat.not_le.1 hlen))
  | setKey k b =>
    exact .next { s with key := s.key.set k.val b k.isLt } [] hs (hostEvent_setKey hs k b) (hostEvent_setKey hs' k b)
  | tick r => exact sameEffect_tick hs hfont fun _ => rfl
  | tickTimers =>
    exact .next { s with dt := countDown s.dt, st := countDown s.st } [] hs (hostEvent_tickTimers hs)
      (hostEvent_tickTimers hs')
  | readDisplay =>
    exact .next s [.display 64 32 s.fb] hs (hostEvent_readDisplay hs) (hostEvent_readDisplay hs')

/-! ### The byte of a `Tick` -/

/-- Settles O55: with two bytes the ticks fault alike, on one free value each, or leave one core and add the same
outputs. -/
theorem randomByteMattersToRandomOnly : Obligations.RandomByteMattersToRandomOnly := by
  intro s r r' hrandom
  cases hs : s.fault with
  | true => exact ⟨s, s, hostEvent_faulted hs _, hostEvent_faulted hs _, rfl, rfl⟩
  | false =>
    have heffect : SameEffect s s.env (.tick r) (.tick r') :=
      sameEffect_tick hs rfl fun ⟨x, nn, hd⟩ => absurd hd (hrandom x nn)
    cases heffect with
    | fault c h h' => exact ⟨_, _, h, h', rfl, rfl⟩
    | next t out hf h h' => exact ⟨_, _, h, h', rfl, rfl⟩

/-! ### The core under a schedule -/

/-- Two states that the same events take to the same latch and, outside the fault state, the same core. -/
structure Agree (s s' : State) : Prop where
  fault : s'.fault = s.fault
  cause : s'.cause = s.cause
  font : s'.env.font = s.env.font
  core : s.fault = false → SameCore s s'

/-- In the fault state an event leaves a state, or resets it, whatever the rest of it is. -/
theorem agree_of_faulted {s s' : State} (h : Agree s s') (hs : s.fault = true) (ev : HostEvent) :
    ∃ t t', hostEvent ev s = .next t ∧ hostEvent ev s' = .next t' ∧ Agree t t' := by
  have hs' : s'.fault = true := h.fault.trans hs
  by_cases hev : ev = .reset
  · have hreset : Agree (resetCore s) (resetCore s') := ⟨rfl, rfl, h.font, fun _ => rfl⟩
    exact ⟨_, _, hev ▸ hostEvent_reset s, hev ▸ hostEvent_reset s', hreset⟩
  · obtain ⟨t, ht, hcore, hfont, -⟩ := hostEvent_faulted_keeps hs hev
    obtain ⟨t', ht', hcore', hfont', -⟩ := hostEvent_faulted_keeps hs' hev
    have hfault : t.fault = true := (sameCore_fault hcore).trans hs
    exact ⟨t, t', ht, ht', ((sameCore_fault hcore').trans hs').trans hfault.symm,
      by rw [sameCore_cause hcore, sameCore_cause hcore', h.cause], by rw [hfont, hfont', h.font],
      fun hf => absurd (hfault.symm.trans hf) (by decide)⟩

theorem font_begun (ev : HostEvent) (s : State) : (begun ev s).env.font = s.env.font := by
  cases ev <;> rfl

theorem font_envAfter (out : List HostOutput) (ev : HostEvent) (e : Env) : (envAfter out ev e).font = e.font := by
  cases ev <;> rfl

/-- Events keep the agreement. -/
theorem agree_of_hostEvent {s s' : State} (h : Agree s s') (ev : HostEvent) :
    ∃ t t', hostEvent ev s = .next t ∧ hostEvent ev s' = .next t' ∧ Agree t t' := by
  cases hs : s.fault with
  | true => exact agree_of_faulted h hs ev
  | false =>
    have hself : ({ s with env := s'.env } : State) = s' := by
      rw [← show ({ s' with env := s.env } : State) = s from h.core hs]
    have heffect := sameEffect_of_live hs h.font ev
    rw [← hself]
    cases heffect with
    | fault c hc hc' =>
      refine ⟨_, _, hc, hc', rfl, rfl, ?_, nofun⟩
      simp only [enterFault_env, font_begun, h.font]
    | next t out hf ht ht' =>
      refine ⟨_, _, ht, ht', rfl, rfl, ?_, fun _ => rfl⟩
      simp only [font_envAfter, h.font]

theorem agree_of_runSchedule {s s' : State} (h : Agree s s') (schedule : Nat → HostEvent) (n : Nat) :
    ∃ t t', runSchedule schedule n s = .next t ∧ runSchedule schedule n s' = .next t' ∧ Agree t t' := by
  induction n with
  | zero => exact ⟨s, s', rfl, rfl, h⟩
  | succ n ih =>
    obtain ⟨t, t', ht, ht', hagree⟩ := ih
    obtain ⟨u, u', hu, hu', hagree'⟩ := agree_of_hostEvent hagree (schedule n)
    exact ⟨u, u', (runSchedule_succ ht).trans hu, (runSchedule_succ ht').trans hu', hagree'⟩

/-- Settles O58: every event keeps the agreement of two states, whatever the schedule. -/
theorem behaviourFollowsTheScheduleAlone : Obligations.BehaviourFollowsTheScheduleAlone := by
  intro schedule n s s' hcore hfont
  have hstart : Agree s s' := ⟨sameCore_fault hcore, sameCore_cause hcore, hfont, fun _ => hcore⟩
  obtain ⟨t, t', ht, ht', hagree⟩ := agree_of_runSchedule hstart schedule n
  exact ⟨t, t', ht, ht', hagree.fault, hagree.cause, hagree.core⟩

end Sys2Proof.Proofs

/-! PROOFS. Schedules without end (60_exceptions.md R191): the plan a state holds is the infinite schedule it unrolls to,
and what a wait-key does under a schedule. -/

namespace Sys2Proof.Proofs
open Sys2Proof.Machine

/-! ### The plan stands outside the core -/

/-- The state with another plan. -/
def replanned (s : State) (es : List HostEvent) (ps : List PlannedEvent) : State :=
  (s.withSchedule es).withRecurring ps

theorem sameCore_replanned (s : State) (es : List HostEvent) (ps : List PlannedEvent) :
    SameCore (replanned s es ps) s := rfl

/-- An event takes the plan along. -/
theorem hostEvent_replanned {ev : HostEvent} {s t : State} (h : hostEvent ev s = .next t) (es : List HostEvent)
    (ps : List PlannedEvent) : hostEvent ev (replanned s es ps) = .next (replanned t es ps) := by
  cases hs : s.fault with
  | true =>
    rw [hostEvent_faulted hs] at h
    rw [hostEvent_faulted (s := replanned s es ps) hs]
    cases ev <;> cases h <;> rfl
  | false =>
    have heffect := sameEffect_of_live (e := { s.env with schedule := es, recurring := ps }) hs rfl ev
    cases heffect with
    | fault c hc hc' =>
      cases hc.symm.trans h
      refine hc'.trans ?_
      cases ev <;> rfl
    | next u out hf hu hu' =>
      cases hu.symm.trans h
      refine hu'.trans ?_
      cases ev <;> rfl

/-- What is left of the beginning after `n` events. -/
def beginningAfter (beginning : List HostEvent) (n : Nat) : List HostEvent := beginning.drop n

/-- The recurring events after `n` events: each one past the beginning has taken the first to the end. -/
def recurringAfter (beginning : List HostEvent) (e : HostEvent) (es : List HostEvent) (n : Nat) : List PlannedEvent :=
  ((e :: es).rotate (n - beginning.length)).map PlannedEvent.given

theorem recurringAfter_of_le {beginning : List HostEvent} {n : Nat} (h : n ≤ beginning.length) (e : HostEvent)
    (es : List HostEvent) : recurringAfter beginning e es n = (e :: es).map PlannedEvent.given := by
  rw [recurringAfter, Nat.sub_eq_zero_of_le h, List.rotate_zero]

/-- The first of the rotated events, and the rest with it at the end. -/
theorem exists_rotate_eq_cons (e : HostEvent) (es : List HostEvent) (m : Nat) :
    ∃ rest, (e :: es).rotate m = (e :: es).getD (m % (es.length + 1)) e :: rest ∧
      (e :: es).rotate (m + 1) = rest ++ [(e :: es).getD (m % (es.length + 1)) e] := by
  have hpos : 0 < (e :: es).length := Nat.succ_pos _
  obtain ⟨a, rest, hcons⟩ := List.exists_cons_of_length_pos (List.length_rotate (e :: es) m ▸ hpos)
  have hhead : (e :: es)[m % (es.length + 1)]? = some a := by
    have hfirst := List.getElem?_rotate (n := m) hpos
    rw [hcons, Nat.zero_add] at hfirst
    exact hfirst.symm
  rw [List.getD_eq_getElem?_getD, hhead]
  refine ⟨rest, hcons, ?_⟩
  rw [← List.rotate_rotate, hcons, List.rotate_cons_succ, List.rotate_zero]
  rfl

/-- A step of a state `n` events into its plan performs the event of that number. -/
theorem step_replanned (u : State) (beginning : List HostEvent) (e : HostEvent) (es : List HostEvent) (n : Nat) :
    step (replanned u (beginningAfter beginning n) (recurringAfter beginning e es n)) =
      hostEvent (unrolled beginning e es n)
        (replanned u (beginningAfter beginning (n + 1)) (recurringAfter beginning e es (n + 1))) := by
  by_cases hn : n < beginning.length
  · have hevent : unrolled beginning e es n = beginning[n] := by
      rw [unrolled, if_pos hn, List.getD_eq_getElem _ _ hn]
    have hplan : beginningAfter beginning n = beginning[n] :: beginningAfter beginning (n + 1) :=
      List.drop_eq_getElem_cons hn
    rw [recurringAfter_of_le hn.le, recurringAfter_of_le hn, hevent, hplan]
    exact step_scheduled rfl
  · have hlen : beginning.length ≤ n := Nat.not_lt.1 hn
    have hdone : beginningAfter beginning n = [] := List.drop_eq_nil_of_le hlen
    have hdone' : beginningAfter beginning (n + 1) = [] := List.drop_eq_nil_of_le (hlen.trans n.le_succ)
    obtain ⟨rest, hrotate, hrotate'⟩ := exists_rotate_eq_cons e es (n - beginning.length)
    rw [unrolled, if_neg hn, recurringAfter, recurringAfter, Nat.sub_add_comm hlen, hrotate, hrotate', hdone, hdone',
      List.map_append]
    exact step_given rfl rfl

/-- The steps and the events of the unrolled plan take a state to the same state, but for the plan that is left. -/
theorem runSteps_eq_replanned {s : State} {beginning : List HostEvent} {e : HostEvent} {es : List HostEvent}
    (hbeginning : s.env.schedule = beginning) (hrecurring : s.env.recurring = (e :: es).map PlannedEvent.given)
    (n : Nat) : ∃ u, runSchedule (unrolled beginning e es) n s = .next u ∧
      runSteps n s = .next (replanned u (beginningAfter beginning n) (recurringAfter beginning e es n)) := by
  induction n with
  | zero =>
    refine ⟨s, rfl, ?_⟩
    rw [recurringAfter_of_le (Nat.zero_le _), ← hrecurring, beginningAfter, List.drop_zero, ← hbeginning]
    rfl
  | succ n ih =>
    obtain ⟨u, hschedule, hsteps⟩ := ih
    obtain ⟨v, hv⟩ := hostEvent_total (unrolled beginning e es n) u
    refine ⟨v, (runSchedule_succ hschedule).trans hv, ?_⟩
    rw [runSteps_succ hsteps, step_replanned]
    exact hostEvent_replanned hv _ _

/-- Settles O57: the states of the two runs differ in the plan alone. -/
theorem stepsFollowTheInfiniteSchedule : Obligations.StepsFollowTheInfiniteSchedule := by
  intro s beginning e es n hbeginning hrecurring
  obtain ⟨u, hschedule, hsteps⟩ := runSteps_eq_replanned hbeginning hrecurring n
  exact ⟨_, u, hsteps, hschedule, sameCore_replanned u _ _, rfl⟩

/-! ### A wait-key under a schedule -/

/-- The flag of key `k` after an event other than `Reset` and `Load`. -/
def keyAfter (k : Fin 16) (old : Bool) : HostEvent → Bool
  | .setKey j b => if k = j then b else old
  | _ => old

theorem keyAfter_eq_false {k : Fin 16} {ev : HostEvent} (h : ev ≠ .setKey k true) : keyAfter k false ev = false := by
  cases ev with
  | setKey j b =>
    cases b with
    | false => exact ite_self _
    | true => exact if_neg fun hkj : k = j => h (hkj ▸ rfl)
  | _ => rfl

theorem keyAfter_eq_true {k : Fin 16} {ev : HostEvent} (h : ev ≠ .setKey k false) : keyAfter k true ev = true := by
  cases ev with
  | setKey j b =>
    cases b with
    | true => exact ite_self _
    | false => exact if_neg fun hkj : k = j => h (hkj ▸ rfl)
  | _ => rfl

theorem keyAfter_pressed (k : Fin 16) (old : Bool) : keyAfter k old (.setKey k true) = true := if_pos rfl

/-- An event at a wait-key, but for a tick with the key down: the state still stands there. -/
theorem hostEvent_staysAtWaitKey {x : Reg} {k : Fin 16} {s : State} (h : AtWaitKey x k s) {ev : HostEvent}
    (hreset : ev ≠ .reset) (hload : ∀ bytes, ev ≠ .load bytes) (htick : ∀ r, ev = .tick r → s.keyFlag k = false) :
    ∃ t, hostEvent ev s = .next t ∧ AtWaitKey x k t ∧ t.pc = s.pc ∧ t.keyFlag k = keyAfter k (s.keyFlag k) ev := by
  have ⟨hlive, hrange, hword, hindex⟩ := h
  cases ev with
  | reset => exact absurd rfl hreset
  | load bytes => exact absurd rfl (hload bytes)
  | setKey j b =>
    exact ⟨_, hostEvent_setKey hlive j b, ⟨hlive, hrange, hword, hindex⟩, rfl, keyFlag_setKey s j k b⟩
  | tick r =>
    obtain ⟨t, ht, hcore, -, hfont⟩ := hostEvent_tick_keyUp h (htick r rfl) r
    exact ⟨t, ht, h.of_sameCore hcore hfont, sameCore_pc hcore, keyFlag_of_sameCore hcore k⟩
  | tickTimers => exact ⟨_, hostEvent_tickTimers hlive, ⟨hlive, hrange, hword, hindex⟩, rfl, rfl⟩
  | readDisplay => exact ⟨_, hostEvent_readDisplay hlive, ⟨hlive, hrange, hword, hindex⟩, rfl, rfl⟩

/-- If the host never presses the key, the state stands at the wait-key after any number of events. -/
theorem waits_of_neverPressed {schedule : Nat → HostEvent} {x : Reg} {k : Fin 16} {s : State} (h : AtWaitKey x k s)
    (hup : s.keyFlag k = false) (hevents : ∀ n, schedule n ≠ .reset ∧ ∀ bytes, schedule n ≠ .load bytes)
    (hnever : ∀ n, schedule n ≠ .setKey k true) (n : Nat) :
    ∃ t, runSchedule schedule n s = .next t ∧ AtWaitKey x k t ∧ t.pc = s.pc ∧ t.keyFlag k = false := by
  induction n with
  | zero => exact ⟨s, rfl, h, rfl, hup⟩
  | succ n ih =>
    obtain ⟨t, hrun, hwait, hpc, hkey⟩ := ih
    obtain ⟨u, hu, hwait', hpc', hkey'⟩ := hostEvent_staysAtWaitKey hwait (hevents n).1 (hevents n).2 fun _ _ => hkey
    refine ⟨u, (runSchedule_succ hrun).trans hu, hwait', hpc'.trans hpc, ?_⟩
    rw [hkey', hkey, keyAfter_eq_false (hnever n)]

/-- After some number of events the wait-key has been passed, without a fault. -/
def PassesWaitKey (schedule : Nat → HostEvent) (s : State) : Prop :=
  ∃ n t, runSchedule schedule n s = .next t ∧ t.pc = s.pc + 2 ∧ t.fault = false

/-- A tick with the key down passes. -/
theorem passes_of_tick {schedule : Nat → HostEvent} {x : Reg} {k : Fin 16} {s t : State} {n : Nat} {r : Byte}
    (hrun : runSchedule schedule n s = .next t) (hwait : AtWaitKey x k t) (hpc : t.pc = s.pc)
    (hdown : t.keyFlag k = true) (htick : schedule n = .tick r) : PassesWaitKey schedule s := by
  refine ⟨n + 1, (t.withRnd r).advancePc, ?_, congrArg (· + 2) hpc, hwait.live⟩
  rw [runSchedule_succ hrun, htick, hostEvent_tick_keyDown hwait hdown]

/-- As long as no tick has passed, the state stands at the wait-key, and the key is down once it is pressed for good. -/
theorem waits_of_notPassed {schedule : Nat → HostEvent} {x : Reg} {k : Fin 16} {s : State} (h : AtWaitKey x k s)
    (hevents : ∀ n, schedule n ≠ .reset ∧ ∀ bytes, schedule n ≠ .load bytes) {m : Nat}
    (hpress : schedule m = .setKey k true) (hkeep : ∀ n, m < n → schedule n ≠ .setKey k false)
    (hnot : ¬PassesWaitKey schedule s) (n : Nat) :
    ∃ t, runSchedule schedule n s = .next t ∧ AtWaitKey x k t ∧ t.pc = s.pc ∧ (m < n → t.keyFlag k = true) := by
  induction n with
  | zero => exact ⟨s, rfl, h, rfl, fun hm => absurd hm (Nat.not_lt_zero m)⟩
  | succ n ih =>
    obtain ⟨t, hrun, hwait, hpc, hkey⟩ := ih
    have hup (r : Byte) (htick : schedule n = .tick r) : t.keyFlag k = false :=
      Bool.eq_false_of_not_eq_true fun hdown => hnot (passes_of_tick hrun hwait hpc hdown htick)
    obtain ⟨u, hu, hwait', hpc', hkey'⟩ := hostEvent_staysAtWaitKey hwait (hevents n).1 (hevents n).2 hup
    refine ⟨u, (runSchedule_succ hrun).trans hu, hwait', hpc'.trans hpc, fun hm => ?_⟩
    rw [hkey']
    obtain hlt | rfl := Nat.lt_succ_iff_lt_or_eq.1 hm
    · rw [hkey hlt, keyAfter_eq_true (hkeep n hlt)]
    · rw [hpress, keyAfter_pressed]

/-- Settles O59: with the key up no event leaves the wait-key; with the key down for good the next tick does. -/
theorem waitKeyEndsByTheHost : Obligations.WaitKeyEndsByTheHost := by
  intro schedule x k s hs hc hd hk hup hevents
  have hwait : AtWaitKey x k s := ⟨hs, hc, hd, hk⟩
  refine ⟨fun hnever n => ?_, fun m hpress hkeep hticks => ?_⟩
  · obtain ⟨t, hrun, ht, hpc, -⟩ := waits_of_neverPressed hwait hup hevents hnever n
    exact ⟨t, hrun, hpc, ht.live⟩
  · by_contra hnot
    obtain ⟨n, r, hn, htick⟩ := hticks (m + 1)
    obtain ⟨t, hrun, ht, hpc, hdown⟩ := waits_of_notPassed hwait hevents hpress hkeep hnot n
    exact hnot (passes_of_tick hrun ht hpc (hdown hn) htick)

end Sys2Proof.Proofs
